-- ==== Sys2Proof/Word.lean ====
section
/-! DEFINITION. The machine word: every data register, table word and operand is 64 bits (rules R3, R8). -/

namespace Sys2Proof

/-- `u64` (rule R8): an unsigned 64-bit word, arithmetic modulo 2^64. An `s64` is the same bits read as two's complement. -/
abbrev Word := BitVec 64

end Sys2Proof
end

