-- ==== Sys2Proof/Syntax.lean ====
section
/-! DEFINITION. The 13 commands of the opcode map (rule R75, opcode_table.json) and their operands. -/

namespace Sys2Proof

/-- A command with its operand (rules R73 to R75). A stream number selects one of 128 registers and its seven bits
exhaust them, so its type carries its range; `n` is the 64 bits of a two's-complement operand (rule R74). An
exponent, a status register number and a table index are numbers the rules compare with a limit, so they are
naturals, and `Instr.wellFormed` says what their format can hold (log entry 17, DESIGN CHOICE). -/
inductive Instr where
  /-- `NOP` (rule R180). -/
  | nop
  /-- `CFG k` (rule R181): choose the table size `2^k`. -/
  | cfg (k : Nat)
  /-- `RDS c` (rule R182): read status register `c`. -/
  | rds (c : Nat)
  /-- `STARTS n` (rule R107): jump-ahead. -/
  | starts (n : Word)
  /-- `STEP j` (rule R92): one transition of stream `j`. -/
  | step (j : BitVec 7)
  /-- `TINIT` (rule R121): initialise the table. -/
  | tinit
  /-- `TXOR v` (rule R123): one update with a given value. -/
  | txor (v : Word)
  /-- `TRD i` (rule R124): read table word `i`. -/
  | trd (i : Nat)
  /-- `SEED` (rule R126): initialise the 128 streams. -/
  | seed
  /-- `UPD j` (rule R127): one update from stream `j`. -/
  | upd (j : BitVec 7)
  /-- `RUN` (rule R128): the whole update phase. -/
  | run
  /-- `RDR j` (rule R129): read stream register `j`. -/
  | rdr (j : BitVec 7)
  /-- `VERIFY` (rule R154): verification replay and error count. -/
  | verify
  deriving DecidableEq, Repr

end Sys2Proof
end

