-- ==== Sys2Proof/WellFormed.lean ====
section
/-! DEFINITION. Which commands have an encoding: each operand fits its format's field (rule R73). -/

namespace Sys2Proof

/-- Each operand fits the field its format gives it (rule R73): `k` six bits, `c` four, `i` sixty. The other
operands' types are exactly their fields. -/
def Instr.wellFormed : Instr → Bool
  | .nop => true
  | .cfg k => decide (k < 2 ^ 6)
  | .rds c => decide (c < 2 ^ 4)
  | .starts _ => true
  | .step _ => true
  | .tinit => true
  | .txor _ => true
  | .trd i => decide (i < 2 ^ 60)
  | .seed => true
  | .upd _ => true
  | .run => true
  | .rdr _ => true
  | .verify => true

end Sys2Proof
end

