-- ==== Sys2Proof/Decode.lean ====
section
/-! DEFINITION. The command word: fields, formats, decoder, encoder (rules R72 to R78, R86). -/

namespace Sys2Proof

/-- `CW[67:64] = op` (rule R72). -/
def opField (cw : BitVec 68) : BitVec 4 := cw.extractLsb' 64 4

/-- `CW[63:0] = arg` (rule R72). -/
def argField (cw : BitVec 68) : Word := cw.extractLsb' 0 64

/-- The seven operand formats (rule R73). -/
inductive Format where
  | Z | K | S | N | J | V | I
  deriving DecidableEq, Repr

/-- The bits of `arg` a format reserves, which must be zero (rule R73). -/
def Format.reserved : Format → Word
  | .Z => 0xFFFFFFFFFFFFFFFF#64
  | .K => 0xFFFFFFFFFFFFFFC0#64
  | .S => 0xFFFFFFFFFFFFFFF0#64
  | .N => 0x0000000000000000#64
  | .J => 0xFFFFFFFFFFFFFF80#64
  | .V => 0x0000000000000000#64
  | .I => 0xF000000000000000#64

/-- Why a word is no command: the two decode faults (rules R76, R77). -/
inductive DecodeError where
  /-- A reserved opcode, `0xD` to `0xF` (rule R76). -/
  | illegalOp
  /-- An assigned opcode with a reserved bit of `arg` set (rule R77). -/
  | reservedBits
  deriving DecidableEq, Repr

/-- What the decoder says of a word. -/
inductive Decoded where
  | command (i : Instr)
  | error (e : DecodeError)
  deriving DecidableEq, Repr

/-- Rule R77: a command whose reserved bits are not all zero is refused, never read with the bits ignored. -/
def checkReserved (f : Format) (arg : Word) (i : Instr) : Decoded :=
  if arg &&& f.reserved = 0#64 then .command i else .error .reservedBits

/-- The decoder: steps (2) and (3) of rule R78 and the operand assembly of rule R74. -/
def decode (cw : BitVec 68) : Decoded :=
  let arg := argField cw
  match (opField cw).toNat with
  | 0x0 => checkReserved .Z arg .nop
  | 0x1 => checkReserved .K arg (.cfg (arg.extractLsb' 0 6).toNat)
  | 0x2 => checkReserved .S arg (.rds (arg.extractLsb' 0 4).toNat)
  | 0x3 => checkReserved .N arg (.starts arg)
  | 0x4 => checkReserved .J arg (.step (arg.extractLsb' 0 7))
  | 0x5 => checkReserved .Z arg .tinit
  | 0x6 => checkReserved .V arg (.txor arg)
  | 0x7 => checkReserved .I arg (.trd (arg.extractLsb' 0 60).toNat)
  | 0x8 => checkReserved .Z arg .seed
  | 0x9 => checkReserved .J arg (.upd (arg.extractLsb' 0 7))
  | 0xA => checkReserved .Z arg .run
  | 0xB => checkReserved .J arg (.rdr (arg.extractLsb' 0 7))
  | 0xC => checkReserved .Z arg .verify
  | _ => .error .illegalOp

/-- The opcode of each command (rule R75). -/
def Instr.opcode : Instr → BitVec 4
  | .nop => 0x0#4
  | .cfg _ => 0x1#4
  | .rds _ => 0x2#4
  | .starts _ => 0x3#4
  | .step _ => 0x4#4
  | .tinit => 0x5#4
  | .txor _ => 0x6#4
  | .trd _ => 0x7#4
  | .seed => 0x8#4
  | .upd _ => 0x9#4
  | .run => 0xA#4
  | .rdr _ => 0xB#4
  | .verify => 0xC#4

/-- The format of each command (rule R75). -/
def Instr.format : Instr → Format
  | .nop => .Z
  | .cfg _ => .K
  | .rds _ => .S
  | .starts _ => .N
  | .step _ => .J
  | .tinit => .Z
  | .txor _ => .V
  | .trd _ => .I
  | .seed => .Z
  | .upd _ => .J
  | .run => .Z
  | .rdr _ => .J
  | .verify => .Z

/-- The operand placed in `arg` by its format, zero where there is none (rules R73, R84). -/
def Instr.arg : Instr → Word
  | .nop => 0#64
  | .cfg k => BitVec.ofNat 64 k
  | .rds c => BitVec.ofNat 64 c
  | .starts n => n
  | .step j => j.setWidth 64
  | .tinit => 0#64
  | .txor v => v
  | .trd i => BitVec.ofNat 64 i
  | .seed => 0#64
  | .upd j => j.setWidth 64
  | .run => 0#64
  | .rdr j => j.setWidth 64
  | .verify => 0#64

/-- The encoder: `CW = {op, arg}` (rules R72, R84). -/
def encode (i : Instr) : BitVec 68 := i.opcode ++ i.arg

/-- What the decoder reads from a word given as the number `w`, bit 0 of the word bit 0 of the number. A command
word is 68 bits whatever whole-byte width `nbits` a listing pads it to; a number that needs more is no command
word (log entry 21, DESIGN CHOICE). -/
def decodeTableWord (_nbits w : Nat) : Option Instr :=
  if w < 2 ^ 68 then
    match decode (BitVec.ofNat 68 w) with
    | .command i => some i
    | .error _ => none
  else none

end Sys2Proof
end

