-- ==== Sys2Proof/Config.lean ====
section
/-! DEFINITION. The fixed constants of the block (rule R3) and its implementation parameters (rules R5 to R7). -/

namespace Sys2Proof

/-- `POLY` (rule R3). -/
def POLY : Word := 0x0000000000000007#64

/-- `PERIOD` (rules R3, R93), the least period of the sequence from state 1. -/
def PERIOD : Nat := 1317624576693539401

/-- `NSTREAMS` (rule R3). -/
def NSTREAMS : Nat := 128

/-- `K_MIN` (rule R5), the exponent of the smallest table. -/
def K_MIN : Nat := 7

/-- The four implementation parameters (rule R7), "the parameters a model takes as arguments". The model holds
them in `State.params`, which no step changes, so that a statement about every state is one about every
implementation (log entry 3, DESIGN CHOICE). -/
structure Params where
  /-- `K_MAX`: the exponent of the physical table's size. -/
  kMax : Nat
  /-- `K_RESET`: the value of `K` after reset. -/
  kReset : Nat
  /-- `TOL_NUM`: numerator of the pass threshold. -/
  tolNum : Nat
  /-- `TOL_DEN`: denominator of the pass threshold. -/
  tolDen : Nat
  deriving DecidableEq, Repr

/-- The defaults of rule R7. -/
def Params.default : Params := ⟨28, 28, 1, 100⟩

/-- The ranges of rules R5 to R7: `7 ≤ K_MAX ≤ 60`, `K_MIN ≤ K_RESET ≤ K_MAX`, positive tolerance terms. -/
abbrev Params.Valid (p : Params) : Prop :=
  K_MIN ≤ p.kMax ∧ p.kMax ≤ 60 ∧ K_MIN ≤ p.kReset ∧ p.kReset ≤ p.kMax ∧ 0 < p.tolNum ∧ 0 < p.tolDen

end Sys2Proof
end

