-- ==== Sys2Proof/Machine/State.lean ====
section
/-! DEFINITION. The whole state of the block (rule R20), the two channels to its host (rule R70), and reset (rule R36). -/

namespace Sys2Proof.Machine

/-- The table memory (rules R23, R50): pairs of a word index and a 64-bit word, whole words only (rule R54), in the
canonical form `Memory.wf` (log entry 4, DESIGN CHOICE). An index not listed reads as itself, the value `TINIT`
gives it (log entry 5, DESIGN CHOICE). -/
abbrev Memory := List (Nat × Word)

/-- The working set of one command (rules R24 to R26, R30): invisible to the host, carries nothing between commands. -/
structure Work where
  /-- `M2[0..63]`, the jump-ahead basis vectors (rule R24). -/
  m2 : Vector Word 64
  /-- `JN`, the operand being normalised, an `s64` (rule R25). -/
  jn : Word
  /-- `JI`, the bit index being examined (rule R25). -/
  ji : BitVec 6
  /-- `JRAN`, the accumulated vector (rule R25). -/
  jran : Word
  /-- `JTEMP`, the running sum or the row being built (rule R25). -/
  jtemp : Word
  /-- `VRAN`, the generator state of the verification replay (rule R26). -/
  vran : Word
  /-- `I`, the outer loop counter (rule R30). -/
  i : Word
  /-- `J`, the stream loop counter (rule R30). -/
  j : BitVec 8
  deriving DecidableEq, Repr

/-- The working set right after reset: the rules leave it unspecified (rule R36); zero is the model's (log entry 7,
DESIGN CHOICE). -/
def Work.reset : Work :=
  { m2 := Vector.replicate 64 0#64, jn := 0#64, ji := 0#6, jran := 0#64, jtemp := 0#64, vran := 0#64, i := 0#64, j := 0#8 }

/-- The seven fault causes (rule R191). -/
inductive Cause where
  /-- A reserved opcode (rule R193). -/
  | illegalOp
  /-- A reserved bit of `arg` is 1 (rule R194). -/
  | reservedBits
  /-- `CFG` with an exponent out of range (rule R195). -/
  | allocFail
  /-- `RDS` of an unassigned register (rule R196). -/
  | badCsr
  /-- The table is read while `TVALID = 0` (rule R198). -/
  | tableNotInit
  /-- A stream is read while `SVALID = 0` (rule R197). -/
  | streamsNotInit
  /-- `TRD` past the end of the table (rule R202). -/
  | indexRange
  deriving DecidableEq, Repr

/-- What the host does to the block (rules R70, R170). -/
inductive Input where
  /-- The host issues a command word (rule R72). -/
  | command (cw : BitVec 68)
  /-- The host asserts reset between commands (rule R220). -/
  | reset
  /-- The host issues a command word and asserts reset while that command is in progress (rule R221). -/
  | resetDuring (cw : BitVec 68)
  deriving DecidableEq, Repr

/-- A response word `RW`: bit 64 the fault flag, bits 63 to 0 the datum (rule R79). -/
abbrev Response := BitVec 65

/-- Reasons the machine could stop with a fault: there are none, so no constructor and no one who raises it. Every
fault of the rules (R191) is TAKEN, which is a next state (rule R200), and no command can hang (rule R71). Safe
(log entry 16). -/
inductive Fault where
  deriving DecidableEq, Repr

/-- Reasons the model could refuse a command. -/
inductive Refusal where
  /-- The command has no meaning in the model yet. Raised by an arm of `exec`; safe. No arm of this model raises it. -/
  | notModelled (mnemonic : String)
  deriving DecidableEq, Repr

/-- The state of the block (rule R20), with the parameters it was built with and the two channels to its host. -/
structure State where
  /-- The implementation parameters (rule R7), which no step changes (log entry 3, DESIGN CHOICE). -/
  params : Params
  /-- `RAN[0..127]`, the stream registers (rule R21). -/
  ran : Vector Word 128
  /-- `Table` (rule R23). -/
  table : Memory
  /-- The working set (rules R24 to R26, R30). -/
  work : Work
  /-- `K`, the exponent of the table size (rule R27). -/
  k : BitVec 6
  /-- `TVALID`: the table holds defined words (rule R28). -/
  tvalid : Bool
  /-- `SVALID`: the stream registers hold defined words (rule R28). -/
  svalid : Bool
  /-- `VDONE`: `ERRCNT` and `PASS` are the result of a completed `VERIFY` (rule R28). -/
  vdone : Bool
  /-- `PASS`: the error count is within tolerance (rule R28). -/
  pass : Bool
  /-- `ERRCNT`, the verification error count (rule R29). -/
  errcnt : Word
  /-- `FAULT` (rule R31). -/
  fault : Bool
  /-- `CAUSE`, the code of the first fault taken (rule R31). -/
  cause : BitVec 4
  /-- What the host has issued and the block has not yet taken, oldest first (rule R70; log entry 1, DESIGN CHOICE). -/
  inputs : List Input
  /-- The responses the block has delivered, oldest first (rule R70; log entry 1, DESIGN CHOICE). -/
  responses : List Response
  deriving DecidableEq, Repr

/-- The block with parameters `p` right after reset, nothing issued and nothing answered (rules R36, R220). The
stream registers' zeros are the model's (log entry 6, DESIGN CHOICE). -/
def State.resetWith (p : Params) : State :=
  { params := p
    ran := Vector.replicate 128 0#64
    table := []
    work := Work.reset
    k := BitVec.ofNat 6 p.kReset
    tvalid := false
    svalid := false
    vdone := false
    pass := false
    errcnt := 0#64
    fault := false
    cause := 0#4
    inputs := []
    responses := [] }

/-- The block right after reset with the default parameters (rules R7, R36). -/
def State.reset : State := State.resetWith Params.default

end Sys2Proof.Machine
end

