-- ==== Sys2Proof/Machine/Operands.lean ====
section
/-! DEFINITION. Values derived from `K` (rule R4), the masked index (rule R53) and the response word (rule R79). -/

namespace Sys2Proof.Machine

/-- `TableSize = 2^K` (rule R4). -/
def State.tableSize (s : State) : Nat := 2 ^ s.k.toNat

/-- `MASK = TableSize - 1` as a word (rule R4). -/
def State.mask (s : State) : Word := BitVec.ofNat 64 (s.tableSize - 1)

/-- `NUPDATE = 4 × TableSize` (rule R4). -/
def State.nupdate (s : State) : Nat := 4 * s.tableSize

/-- `B = NUPDATE / 128`, the updates per stream (rule R4). -/
def State.rounds (s : State) : Nat := s.nupdate / NSTREAMS

/-- The masked index `v & MASK` (rule R53). -/
def State.index (s : State) (v : Word) : Nat := (v &&& s.mask).toNat

/-- The offset `B × j` at which stream `j` starts, the `n` of its jump-ahead (rule R125). -/
def State.seedOffset (s : State) (j : BitVec 7) : Word := BitVec.ofNat 64 (s.rounds * j.toNat)

/-- `RW = {fault, data}` (rule R79). -/
def responseWord (fault : Bool) (data : Word) : Response := BitVec.ofBool fault ++ data

/-- The code of a cause (rule R191). -/
def Cause.code : Cause → BitVec 4
  | .illegalOp => 1#4
  | .reservedBits => 2#4
  | .allocFail => 3#4
  | .badCsr => 4#4
  | .tableNotInit => 5#4
  | .streamsNotInit => 6#4
  | .indexRange => 7#4

end Sys2Proof.Machine
end

