-- ==== Sys2Proof/Machine/Ops.lean ====
section
/-! DEFINITION. The operations every command is made of: the transition rule, counted loops, the table, the stream
registers, responses, taking a fault, the faulted state, reset. -/

namespace Sys2Proof.Machine

/-- The transition rule `T` (rule R90): shift left by one, dropping bit 63, and fold in `POLY` if bit 63 was set. -/
def T (v : Word) : Word := (v <<< 1) ^^^ (if v.getLsbD 63 then POLY else 0#64)

/-- `for I = 0 .. n-1 do f I`, in that order. -/
def iter {σ : Type} : Nat → (Nat → σ → σ) → σ → σ
  | 0, _, s => s
  | n + 1, f, s => f n (iter n f s)

/-! ### The table -/

/-- What a word that is not listed reads as: its own index (rule R121; before `TINIT` log entry 5, DESIGN CHOICE). -/
def Memory.initial (i : Nat) : Word := BitVec.ofNat 64 i

/-- `MemRead(i, 8)` (rule R9). -/
def Memory.read : Memory → Nat → Word
  | [], i => Memory.initial i
  | c :: m, i => if c.1 = i then c.2 else Memory.read m i

/-- Put `c` in front of `m` unless it holds what an unlisted word reads as. -/
def Memory.cons (c : Nat × Word) (m : Memory) : Memory := if c.2 = Memory.initial c.1 then m else c :: m

/-- `MemWrite(i, 8, v)` (rule R9), which keeps the canonical form. -/
def Memory.write : Memory → Nat → Word → Memory
  | [], i, v => Memory.cons (i, v) []
  | c :: m, i, v =>
    if i < c.1 then Memory.cons (i, v) (c :: m)
    else if c.1 = i then Memory.cons (i, v) m
    else c :: Memory.write m i v

/-- The words `0 .. n-1` each written with its own index, the rest as they were: the loop of `TINIT` (rule R121) in
one go (log entry 13, DEDUCED). -/
def Memory.init (n : Nat) (m : Memory) : Memory := m.filter (fun c => n ≤ c.1)

/-- The canonical form: indices strictly rising, and no word listed that holds what it would read as unlisted. -/
abbrev Memory.wf (m : Memory) : Prop :=
  m.Pairwise (fun a b => a.1 < b.1) ∧ ∀ c ∈ m, c.2 ≠ Memory.initial c.1

/-- `MemRead` of the block's table. -/
def State.readTable (s : State) (i : Nat) : Word := Memory.read s.table i

/-- XUPD (rule R122): one indivisible read-modify-write of the word at the masked index, XORed with the whole of `v`. -/
def State.xupd (s : State) (v : Word) : State :=
  { s with table := Memory.write s.table (s.index v) (s.readTable (s.index v) ^^^ v) }

/-! ### The stream registers -/

/-- `RAN[j]` (rule R9). -/
def State.readRan (s : State) (j : BitVec 7) : Word := s.ran[j.toNat]'(j.isLt)

/-- `RAN[j] <- v` (rule R9). -/
def State.writeRan (s : State) (j : BitVec 7) (v : Word) : State := { s with ran := s.ran.set j.toNat v j.isLt }

/-! ### The loop counters -/

/-- `I <- n` (rule R30). -/
def State.setI (s : State) (n : Nat) : State := { s with work := { s.work with i := BitVec.ofNat 64 n } }

/-- `J <- n` (rule R30). -/
def State.setJ (s : State) (n : Nat) : State := { s with work := { s.work with j := BitVec.ofNat 8 n } }

/-- A loop of `n` passes counted by `I`, which starts at zero and counts up by one (rule R30). -/
def State.forI (s : State) (n : Nat) (body : Nat → State → State) : State :=
  iter n (fun i t => (body i t).setI (i + 1)) (s.setI 0)

/-- A loop over the 128 streams in the order 0, 1, …, 127, counted by `J` (rules R30, R131). -/
def State.forJ (s : State) (body : BitVec 7 → State → State) : State :=
  iter NSTREAMS (fun j t => (body (BitVec.ofNat 7 j) t).setJ (j + 1)) (s.setJ 0)

/-! ### Responses, faults, reset -/

/-- Deliver a response word (rule R70). -/
def State.deliver (s : State) (r : Response) : State := { s with responses := s.responses ++ [r] }

/-- `respond(data)`: complete the command with fault flag 0 (rule R9). -/
def State.respond (s : State) (data : Word) : State := s.deliver (responseWord false data)

/-- Fault entry, `raise X` (rule R200): `FAULT` and `CAUSE` are written, the response carries the code, and the
command has no other effect. -/
def State.raise (s : State) (x : Cause) : State :=
  { s with fault := true, cause := x.code }.deliver (responseWord true (x.code.setWidth 64))

/-- The faulted state's answer to every command (rule R201): nothing changes, the first cause is the datum. -/
def State.refuseFaulted (s : State) : State := s.deliver (responseWord true (s.cause.setWidth 64))

/-- Reset (rules R220, R221), the only way out of the faulted state (rule R204). The parameters are the block's own,
and what the host has issued and been answered is the host's, so the three stay. -/
def State.hardReset (s : State) : State :=
  { State.resetWith s.params with inputs := s.inputs, responses := s.responses }

/-- Step (1) of rule R78: every command is refused while `FAULT = 1` (rule R201), whatever it would do. -/
def State.command (s : State) (body : State → State) : Host.Outcome State Fault Refusal :=
  .next (if s.fault then s.refuseFaulted else body s)

/-- Step (5) of rule R78: the table must hold defined words (rule R198). -/
def State.needTable (s : State) (body : State → State) : State :=
  if s.tvalid then body s else s.raise .tableNotInit

/-- Step (5) of rule R78: the stream registers must hold defined words (rule R197). -/
def State.needStreams (s : State) (body : State → State) : State :=
  if s.svalid then body s else s.raise .streamsNotInit

end Sys2Proof.Machine
end

