-- ==== Sys2Proof/Machine/Flags.lean ====
section
/-! DEFINITION. The four flags, `ERRCNT` and the status registers (rules R28, R29, R32, R33), and the pass rule (R153). -/

namespace Sys2Proof.Machine

/-- `VDONE <- 0 ; PASS <- 0 ; ERRCNT <- 0`: what every command that changes the table does (rules R28, R29). -/
def State.clearResults (s : State) : State := { s with vdone := false, pass := false, errcnt := 0#64 }

/-- All four flags and `ERRCNT` cleared, as `CFG` does (rules R28, R29, R181). -/
def State.clearFlags (s : State) : State := { s.clearResults with tvalid := false, svalid := false }

/-- `STATUS` (rule R32): bit 0 `TVALID`, bit 1 `SVALID`, bit 2 `VDONE`, bit 3 `PASS`, the rest zero. -/
def State.status (s : State) : Word :=
  (BitVec.ofBool s.pass ++ BitVec.ofBool s.vdone ++ BitVec.ofBool s.svalid ++ BitVec.ofBool s.tvalid).setWidth 64

/-- The status register `c`, if there is one of that number (rules R32, R33). -/
def State.readCsr (s : State) (c : Nat) : Option Word :=
  match c with
  | 0 => some s.status
  | 1 => some (s.k.setWidth 64)
  | 2 => some (BitVec.ofNat 64 s.tableSize)
  | 3 => some (BitVec.ofNat 64 s.nupdate)
  | 4 => some s.errcnt
  | _ => none

/-- Rule R153, on mathematical integers: `ERRCNT × TOL_DEN ≤ TableSize × TOL_NUM`. -/
def State.withinTolerance (s : State) : Bool :=
  decide (s.errcnt.toNat * s.params.tolDen ≤ s.tableSize * s.params.tolNum)

end Sys2Proof.Machine
end

