-- ==== Sys2Proof/Machine/System.lean ====
section
/-! DEFINITION. The system commands `NOP`, `CFG`, `RDS` (rules R180 to R183). -/

namespace Sys2Proof.Machine

/-- `NOP` (rule R180). -/
def execNop (s : State) : Host.Outcome State Fault Refusal := s.command fun s => s.respond 0#64

/-- `CFG k` (rule R181). The table words and stream registers keep their bits and become unreadable (log entry 9). -/
def execCfg (k : Nat) (s : State) : Host.Outcome State Fault Refusal :=
  s.command fun s =>
    if k < K_MIN ∨ s.params.kMax < k then s.raise .allocFail
    else { s with k := BitVec.ofNat 6 k }.clearFlags.respond 0#64

/-- `RDS c` (rule R182): reading has no side effect. -/
def execRds (c : Nat) (s : State) : Host.Outcome State Fault Refusal :=
  s.command fun s =>
    match s.readCsr c with
    | some v => s.respond v
    | none => s.raise .badCsr

end Sys2Proof.Machine
end

