-- ==== Sys2Proof/Machine/JumpAhead.lean ====
section
/-! DEFINITION. Jump-ahead: NORM, BUILD, SQR, MSB, LOOP, `starts(n)` and `STARTS` (rules R100 to R108). -/

namespace Sys2Proof.Machine

/-- `M2[i]` (rule R9). -/
def Work.readM2 (w : Work) (i : BitVec 6) : Word := w.m2[i.toNat]'(i.isLt)

/-- `M2[i] <- v` (rule R9). -/
def Work.writeM2 (w : Work) (i : BitVec 6) (v : Word) : Work := { w with m2 := w.m2.set i.toNat v i.isLt }

/-- `PERIOD` as an `s64`. -/
def periodWord : Word := BitVec.ofNat 64 PERIOD

/-- One pass of the first loop of NORM (rule R100): `JN <- JN + PERIOD` while `JN < 0`. -/
def Work.normUp (w : Work) : Work := if w.jn.slt 0#64 then { w with jn := w.jn + periodWord } else w

/-- One pass of the second loop of NORM (rule R100): `JN <- JN - PERIOD` while `JN > PERIOD`. -/
def Work.normDown (w : Work) : Work := if periodWord.slt w.jn then { w with jn := w.jn - periodWord } else w

/-- NORM (rule R100): into `[0, PERIOD]`, closed at both ends. At most 8 additions and 6 subtractions are made, so
so many passes are the whole of each loop (log entry 12, DEDUCED). -/
def Work.norm (w : Work) (n : Word) : Work :=
  iter 6 (fun _ => Work.normDown) (iter 8 (fun _ => Work.normUp) { w with jn := n })

/-- One row of BUILD (rule R102): `M2[i] <- JTEMP ; JTEMP <- T(T(JTEMP))`. -/
def Work.buildRow (i : Nat) (w : Work) : Work :=
  { w.writeM2 (BitVec.ofNat 6 i) w.jtemp with jtemp := T (T w.jtemp) }

/-- BUILD (rule R102): the 64 rows of the squaring matrix, from first row 1. -/
def Work.build (w : Work) : Work := iter 64 Work.buildRow { w with jtemp := 1#64 }

/-- One term of SQR (rule R103): add row `j` if bit `j` of `v` is set. -/
def Work.sqrTerm (v : Word) (j : Nat) (w : Work) : Work :=
  if v.getLsbD j then { w with jtemp := w.jtemp ^^^ w.readM2 (BitVec.ofNat 6 j) } else w

/-- SQR (rule R103): the XOR of the rows selected by the set bits of `v`, left in `JTEMP`. -/
def Work.sqr (w : Work) (v : Word) : Work := iter 64 (Work.sqrTerm v) { w with jtemp := 0#64 }

/-- The largest set bit of `v` at or below bit `i`, zero if there is none. -/
def topBit (v : Word) : Nat → Nat
  | 0 => 0
  | i + 1 => if v.getLsbD (i + 1) then i + 1 else topBit v i

/-- MSB (rule R104): `JI <- ` the index of the most-significant set bit of `JN`. -/
def Work.msb (w : Work) : Work := { w with ji := BitVec.ofNat 6 (topBit w.jn 63) }

/-- One pass of LOOP (rule R105): square, move to the next bit down, and step if that bit of `JN` is set. -/
def Work.loopPass (w : Work) : Work :=
  let w := { w.sqr w.jran with jran := (w.sqr w.jran).jtemp, ji := w.ji - 1#6 }
  if w.jn.getLsbD w.ji.toNat then { w with jran := T w.jran } else w

/-- LOOP (rule R105): from `JRAN = 2`, one pass for each bit below the most-significant one. -/
def Work.loop (w : Work) : Work := iter w.ji.toNat (fun _ => Work.loopPass) { w with jran := 2#64 }

/-- `starts(n)` as the hardware computes it (rules R100 to R105, R107): the working set it leaves and its result. -/
def Work.jumpAhead (w : Work) (n : Word) : Work × Word :=
  let w := w.norm n
  if w.jn = 0#64 then (w, 1#64)
  else
    let w := w.build.msb.loop
    (w, w.jran)

/-- `STARTS n` (rule R107): every operand is legal, and only the working set is written. -/
def execStarts (n : Word) (s : State) : Host.Outcome State Fault Refusal :=
  s.command fun s => { s with work := (s.work.jumpAhead n).1 }.respond (s.work.jumpAhead n).2

end Sys2Proof.Machine
end

