-- ==== Sys2Proof/Machine/Generator.lean ====
section
/-! DEFINITION. The stream registers: `STEP` (rule R92), `SEED` (rule R126), `RDR` (rule R129). -/

namespace Sys2Proof.Machine

/-- `STEP j` (rule R92): advance one stream by one transition and respond with its new value. -/
def execStep (j : BitVec 7) (s : State) : Host.Outcome State Fault Refusal :=
  s.command fun s => s.needStreams fun s =>
    (s.writeRan j (T (s.readRan j))).respond (T (s.readRan j))

/-- One pass of the seeding loop (rule R126): `RAN[J] <- starts(B × J)`. -/
def State.seedStream (j : BitVec 7) (s : State) : State :=
  { s with work := (s.work.jumpAhead (s.seedOffset j)).1 }.writeRan j (s.work.jumpAhead (s.seedOffset j)).2

/-- All 128 streams seeded and `SVALID <- 1`: `SEED`, and step 1 of `RUN` (rules R126, R128). -/
def State.seedAll (s : State) : State := { s.forJ State.seedStream with svalid := true }

/-- `SEED` (rule R126). It needs no table. -/
def execSeed (s : State) : Host.Outcome State Fault Refusal :=
  s.command fun s => s.seedAll.respond 0#64

/-- `RDR j` (rule R129). -/
def execRdr (j : BitVec 7) (s : State) : Host.Outcome State Fault Refusal :=
  s.command fun s => s.needStreams fun s => s.respond (s.readRan j)

end Sys2Proof.Machine
end

