-- ==== Sys2Proof/Machine/Updater.lean ====
section
/-! DEFINITION. The table: `TINIT`, `TXOR`, `TRD`, `UPD`, `RUN` (rules R121 to R128). -/

namespace Sys2Proof.Machine

/-- `TINIT` (rule R121): `Table[i] <- i` for all `i`; legal whatever `TVALID` is. The loop counter ends at its bound. -/
def execTinit (s : State) : Host.Outcome State Fault Refusal :=
  s.command fun s =>
    ({ s with table := Memory.init s.tableSize s.table, tvalid := true }.setI s.tableSize).clearResults.respond 0#64

/-- `TXOR v` (rule R123): one update with a value the host supplies. -/
def execTxor (v : Word) (s : State) : Host.Outcome State Fault Refusal :=
  s.command fun s => s.needTable fun s => (s.xupd v).clearResults.respond 0#64

/-- `TRD i` (rule R124): the index is direct, and one past the table is refused, not wrapped (rule R202). -/
def execTrd (i : Nat) (s : State) : Host.Outcome State Fault Refusal :=
  s.command fun s => s.needTable fun s =>
    if s.tableSize ≤ i then s.raise .indexRange else s.respond (s.readTable i)

/-- The inner body of the update loop (rules R127, R128): advance the stream first, then update with the NEW value. -/
def State.updStream (j : BitVec 7) (s : State) : State :=
  (s.writeRan j (T (s.readRan j))).xupd (T (s.readRan j))

/-- `UPD j` (rule R127): one update from one stream; the table is checked before the streams (rule R199). -/
def execUpd (j : BitVec 7) (s : State) : Host.Outcome State Fault Refusal :=
  s.command fun s => s.needTable fun s => s.needStreams fun s =>
    (State.updStream j s).clearResults.respond (T (s.readRan j))

/-- Step 2 of `RUN` (rule R128): `B` outer iterations over the 128 streams. -/
def State.updateRounds (s : State) : State := s.forI s.rounds (fun _ t => t.forJ State.updStream)

/-- `RUN` (rule R128): seed the streams, then make all `NUPDATE` updates in the fixed interleaved order. -/
def execRun (s : State) : Host.Outcome State Fault Refusal :=
  s.command fun s => s.needTable fun s => s.seedAll.updateRounds.clearResults.respond 0#64

end Sys2Proof.Machine
end

