-- ==== Sys2Proof/Machine/Verification.lean ====
section
/-! DEFINITION. The verification replay, the error count and `VERIFY` (rules R150 to R156). -/

namespace Sys2Proof.Machine

/-- `VRAN <- v` (rule R26). -/
def State.setVran (s : State) (v : Word) : State := { s with work := { s.work with vran := v } }

/-- One pass of REPLAY (rule R151): advance first, then update. -/
def State.replayStep (_i : Nat) (s : State) : State := (s.setVran (T s.work.vran)).xupd (T s.work.vran)

/-- REPLAY (rule R151): the same `NUPDATE` values from a single stream that starts at 1. -/
def State.replay (s : State) : State := (s.setVran 1#64).forI s.nupdate State.replayStep

/-- One pass of COUNT (rule R152): all 64 bits of the word against its index. -/
def State.countWord (i : Nat) (s : State) : State :=
  if s.readTable i ≠ BitVec.ofNat 64 i then { s with errcnt := s.errcnt + 1#64 } else s

/-- COUNT (rule R152): `ERRCNT <- ` the number of words that differ from their index. -/
def State.countErrors (s : State) : State := { s with errcnt := 0#64 }.forI s.tableSize State.countWord

/-- `PASS` by rule R153, then `VDONE <- 1` (rule R154). -/
def State.judge (s : State) : State := { s with pass := s.withinTolerance, vdone := true }

/-- `VERIFY` (rule R154): replay, count, judge. A high error count is no fault (rule R156). -/
def execVerify (s : State) : Host.Outcome State Fault Refusal :=
  s.command fun s => s.needTable fun s =>
    s.replay.countErrors.judge.respond s.replay.countErrors.errcnt

end Sys2Proof.Machine
end

