-- ==== Sys2Proof/Machine/Dispatch.lean ====
section
/-! DEFINITION. One command carried out: the meaning of every constructor of Instr. -/

namespace Sys2Proof.Machine

def exec (i : Instr) (s : State) : Host.Outcome State Fault Refusal :=
  match i with
  | .nop => Sys2Proof.Machine.execNop s
  | .cfg k => Sys2Proof.Machine.execCfg k s
  | .rds c => Sys2Proof.Machine.execRds c s
  | .starts n => Sys2Proof.Machine.execStarts n s
  | .step j => Sys2Proof.Machine.execStep j s
  | .tinit => Sys2Proof.Machine.execTinit s
  | .txor v => Sys2Proof.Machine.execTxor v s
  | .trd a => Sys2Proof.Machine.execTrd a s
  | .seed => Sys2Proof.Machine.execSeed s
  | .upd j => Sys2Proof.Machine.execUpd j s
  | .run => Sys2Proof.Machine.execRun s
  | .rdr j => Sys2Proof.Machine.execRdr j s
  | .verify => Sys2Proof.Machine.execVerify s

end Sys2Proof.Machine
end

