-- ==== Sys2Proof/Machine/Channel.lean ====
section
/-! DEFINITION. The command channel: taking a word from the host, decoding it, and reset (rules R70, R78, R220, R221). -/

namespace Sys2Proof.Machine

/-- The fault each decode error raises (rules R76, R77). -/
def decodeCause : DecodeError → Cause
  | .illegalOp => .illegalOp
  | .reservedBits => .reservedBits

/-- One command word carried out in the order of rule R78; a word that is no command raises its fault. -/
def acceptWord (cw : BitVec 68) (s : State) : Host.Outcome State Fault Refusal :=
  match decode cw with
  | .command i => exec i s
  | .error e => s.command fun s => s.raise (decodeCause e)

/-- One thing the host does. A command cut off by reset is abandoned with no response (rule R221). -/
def acceptInput (x : Input) (s : State) : Host.Outcome State Fault Refusal :=
  match x with
  | .command cw => acceptWord cw s
  | .reset => .next s.hardReset
  | .resetDuring _ => .next s.hardReset

/-- Take the oldest pending input, one at a time (rule R70). With nothing pending the block waits (rule R213). -/
def serve (s : State) : Host.Outcome State Fault Refusal :=
  match s.inputs with
  | [] => .next s
  | x :: rest => acceptInput x { s with inputs := rest }

/-- `s` with the command word `w` as the next input the block takes. -/
def offerWord (s : State) (w : Nat) : State := { s with inputs := .command (BitVec.ofNat 68 w) :: s.inputs }

end Sys2Proof.Machine
end

