-- ==== Sys2Proof/Machine/Step.lean ====
section
/-! DEFINITION. One step of the machine: the block takes and completes one input of its host (rules R70, R71). -/

namespace Sys2Proof.Machine

/-- One step: the oldest pending input, taken and completed (rule R71: a command is atomic for the host). -/
def step (s : State) : Host.Outcome State Fault Refusal := serve s

/-- `s` with the command word `w` placed where the next step takes its command, the head of the command channel. A
command word is 68 bits whatever whole-byte width `nbits` a listing pads it to (log entries 2, 21). -/
def State.withFetchWord (s : State) (_nbits w : Nat) : State := offerWord s w

end Sys2Proof.Machine
end

