-- ==== Sys2Proof/Machine/Assembler.lean ====
section
/-! DEFINITION. The written form of commands: assembler lines and pseudo-commands (rules R84, R85). What rule R84
leaves open (blanks, leading zeros, stream names, what is refused) is log entry 20, DESIGN CHOICE. -/

namespace Sys2Proof.Machine

/-- The pseudo-commands of rule R85. -/
inductive Pseudo where
  /-- `BENCH k`: the driver's pipeline. -/
  | bench (k : Nat)
  /-- `ERRS`: read the error count. -/
  | errs
  /-- `STATUS`: read the flags. -/
  | status
  deriving DecidableEq, Repr

/-- What each pseudo-command expands to (rule R85). -/
def Pseudo.expand : Pseudo → List Instr
  | .bench k => [.cfg k, .tinit, .run, .verify]
  | .errs => [.rds 4]
  | .status => [.rds 0]

/-- An operand as written (rule R84): an unsigned number, a negative decimal, or a stream name `s<j>`. -/
inductive Operand where
  | number (n : Nat)
  | negative (n : Nat)
  | stream (j : Nat)
  deriving DecidableEq, Repr

/-- The value of a digit in a base up to sixteen. -/
def digitValue (base : Nat) (c : Char) : Option Nat :=
  let d :=
    if '0' ≤ c ∧ c ≤ '9' then some (c.toNat - '0'.toNat)
    else if 'a' ≤ c ∧ c ≤ 'f' then some (c.toNat - 'a'.toNat + 10)
    else if 'A' ≤ c ∧ c ≤ 'F' then some (c.toNat - 'A'.toNat + 10)
    else none
  d.filter (fun v => decide (v < base))

/-- Digits read from the left, onto what has been read so far. -/
def readDigits (base : Nat) : Nat → List Char → Option Nat
  | n, [] => some n
  | n, c :: cs =>
    match digitValue base c with
    | some d => readDigits base (n * base + d) cs
    | none => none

/-- A number has at least one digit. -/
def readNumber (base : Nat) (cs : List Char) : Option Nat := if cs.isEmpty then none else readDigits base 0 cs

/-- One operand of an assembler line (rule R84). The `<j>` of a stream name `s<j>` is decimal only: the rule's example is
decimal and it does not say whether `s0x5` is a name; that it is none, and that `0x` is not written `0X`, is the
model's (log entry 20, DESIGN CHOICE). -/
def readOperand : List Char → Option Operand
  | '0' :: 'x' :: cs => (readNumber 16 cs).map .number
  | '-' :: cs => (readNumber 10 cs).map .negative
  | 's' :: cs => (readNumber 10 cs).map .stream
  | cs => (readNumber 10 cs).map .number

/-- A stream operand: a number or a stream name, 0 to 127 (rules R84, R73). -/
def streamOperand : Operand → Option (BitVec 7)
  | .number j => if j < 128 then some (BitVec.ofNat 7 j) else none
  | .stream j => if j < 128 then some (BitVec.ofNat 7 j) else none
  | .negative _ => none

/-- An unsigned operand that fits `width` bits (rule R73). -/
def unsignedOperand (width : Nat) : Operand → Option Nat
  | .number n => if n < 2 ^ width then some n else none
  | _ => none

/-- The signed operand of `STARTS` (rules R74, R84): for a negative `n`, `arg = n + 2^64`. A
number without a sign is the value itself, also in hexadecimal, so one from 2^63 up is refused and not read as a bit
pattern (log entry 20, DESIGN CHOICE). -/
def signedOperand : Operand → Option Word
  | .number n => if n < 2 ^ 63 then some (BitVec.ofNat 64 n) else none
  | .negative n => if n ≤ 2 ^ 63 then some (BitVec.ofNat 64 (2 ^ 64 - n)) else none
  | .stream _ => none

/-- The commands with no operand, and the pseudo-commands with none. -/
def plainLine (m : List Char) : Option (List Instr) :=
  if m = "NOP".toList then some [.nop]
  else if m = "TINIT".toList then some [.tinit]
  else if m = "SEED".toList then some [.seed]
  else if m = "RUN".toList then some [.run]
  else if m = "VERIFY".toList then some [.verify]
  else if m = "ERRS".toList then some Pseudo.errs.expand
  else if m = "STATUS".toList then some Pseudo.status.expand
  else none

/-- The commands with an operand, and `BENCH k`. -/
def operandLine (m : List Char) (o : Operand) : Option (List Instr) :=
  if m = "CFG".toList then (unsignedOperand 6 o).map (fun k => [.cfg k])
  else if m = "RDS".toList then (unsignedOperand 4 o).map (fun c => [.rds c])
  else if m = "STARTS".toList then (signedOperand o).map (fun n => [.starts n])
  else if m = "STEP".toList then (streamOperand o).map (fun j => [.step j])
  else if m = "TXOR".toList then (unsignedOperand 64 o).map (fun v => [.txor (BitVec.ofNat 64 v)])
  else if m = "TRD".toList then (unsignedOperand 60 o).map (fun i => [.trd i])
  else if m = "UPD".toList then (streamOperand o).map (fun j => [.upd j])
  else if m = "RDR".toList then (streamOperand o).map (fun j => [.rdr j])
  else if m = "BENCH".toList then (unsignedOperand 6 o).map (fun k => (Pseudo.bench k).expand)
  else none

/-- The words of a line, split at blanks and tabs; `cur` is the word being read, backwards. -/
def splitWords : List Char → List Char → List (List Char)
  | cur, [] => if cur.isEmpty then [] else [cur.reverse]
  | cur, c :: cs =>
    if c = ' ' ∨ c = '\t' then (if cur.isEmpty then splitWords [] cs else cur.reverse :: splitWords [] cs)
    else splitWords (c :: cur) cs

/-- One line (rule R84): a mnemonic and at most one operand, `;` starts a comment, an empty line is no command. -/
def readLine (line : List Char) : Option (List Instr) :=
  match splitWords [] (line.takeWhile (fun c => c ≠ ';')) with
  | [] => some []
  | [m] => plainLine m
  | [m, x] => (readOperand x).bind (operandLine m)
  | _ => none

/-- The command words of one line (rules R84, R85), none where the line is not of the assembler's form. -/
def assembleLine (line : List Char) : Option (List (BitVec 68)) := (readLine line).map (List.map encode)

/-- One hexadecimal digit, upper case. -/
def hexDigit (d : Nat) : Char := if d < 10 then Char.ofNat ('0'.toNat + d) else Char.ofNat ('A'.toNat + (d - 10))

/-- `n` hexadecimal digits of `v`, most significant first. -/
def hexDigits : Nat → Nat → List Char
  | 0, _ => []
  | n + 1, v => hexDigit (v / 16 ^ n % 16) :: hexDigits n v

/-- The printed form `op:arg`, one and sixteen hexadecimal digits (rule R84). -/
def printWord (cw : BitVec 68) : List Char :=
  hexDigits 1 (opField cw).toNat ++ ':' :: hexDigits 16 (argField cw).toNat

end Sys2Proof.Machine
end

