-- ==== Sys2Proof/Safety.lean ====
section
/-! DEFINITION. The terms claims are stated in: the invariant of the block, what the host can see of a state, and the
spec's own closed forms of what commands compute. -/

namespace Sys2Proof.Machine

/-! ### Safe runs -/

/-- A step is safe when it neither stops with a fault nor is refused: every fault of the block is taken (rule R200). -/
def Completes (o : Host.Outcome State Fault Refusal) : Prop := ∃ t, o = .next t

/-! ### Closed forms -/

/-- The closed form of NORM (rule R100). -/
def normInt (n : Int) : Int :=
  if n < 0 then n % (PERIOD : Int) else if n ≤ (PERIOD : Int) then n else (n - 1) % (PERIOD : Int) + 1

/-- `T^n(1)` (rule R9), the `n`-th term of the sequence. -/
def term (n : Nat) : Word := T^[n] 1#64

/-- The XOR of all `T^m(1)`, `1 ≤ m ≤ n`, whose masked index is `i` (rule R130). -/
def State.streamXor (s : State) (i : Nat) : Nat → Word
  | 0 => 0#64
  | n + 1 => s.streamXor i n ^^^ (if s.index (term (n + 1)) = i then term (n + 1) else 0#64)

/-- The number of indices below `TableSize` whose word differs from its index (rule R152). -/
def State.mismatches (s : State) : Nat := Nat.count (fun i => s.readTable i ≠ BitVec.ofNat 64 i) s.tableSize

/-- How many low bits of `arg` the command with opcode `op` uses; the rest are reserved (rules R73, R75). -/
def operandBits : Nat → Nat
  | 0x1 => 6
  | 0x2 => 4
  | 0x3 => 64
  | 0x4 => 7
  | 0x6 => 64
  | 0x7 => 60
  | 0x9 => 7
  | 0xB => 7
  | _ => 0

/-- The rows of opcode_table.json (rule R86): the word a command's opcode bits must match, and the bits of `arg` its
format reserves. -/
def opcodeRows : List (BitVec 68 × BitVec 68) :=
  [
    (0x00000000000000000#68, 0x0FFFFFFFFFFFFFFFF#68),
    (0x10000000000000000#68, 0x0FFFFFFFFFFFFFFC0#68),
    (0x20000000000000000#68, 0x0FFFFFFFFFFFFFFF0#68),
    (0x30000000000000000#68, 0x00000000000000000#68),
    (0x40000000000000000#68, 0x0FFFFFFFFFFFFFF80#68),
    (0x50000000000000000#68, 0x0FFFFFFFFFFFFFFFF#68),
    (0x60000000000000000#68, 0x00000000000000000#68),
    (0x70000000000000000#68, 0x0F000000000000000#68),
    (0x80000000000000000#68, 0x0FFFFFFFFFFFFFFFF#68),
    (0x90000000000000000#68, 0x0FFFFFFFFFFFFFF80#68),
    (0xA0000000000000000#68, 0x0FFFFFFFFFFFFFFFF#68),
    (0xB0000000000000000#68, 0x0FFFFFFFFFFFFFF80#68),
    (0xC0000000000000000#68, 0x0FFFFFFFFFFFFFFFF#68)
  ]

/-- The bits every row of the table selects by (rule R86). -/
def opcodeMask : BitVec 68 := 0xF0000000000000000#68

/-- The code of the first failing check for the command word `op:arg` in a state that is not faulted, zero if every
check passes (rules R78, R191, R199). -/
def State.firstFault (s : State) (op arg : Nat) : Nat :=
  if 0xD ≤ op then 1
  else if 2 ^ operandBits op ≤ arg then 2
  else if op = 0x1 ∧ (arg < 7 ∨ s.params.kMax < arg) then 3
  else if op = 0x2 ∧ 4 < arg then 4
  else if op ∈ [0x6, 0x7, 0x9, 0xA, 0xC] ∧ s.tvalid = false then 5
  else if op ∈ [0x4, 0x9, 0xB] ∧ s.svalid = false then 6
  else if op = 0x7 ∧ 2 ^ s.k.toNat ≤ arg then 7
  else 0

/-- Commands issued one after another (rule R71), stopping where one does not complete. -/
def execAll : List Instr → State → Host.Outcome State Fault Refusal
  | [], s => .next s
  | i :: is, s =>
    match exec i s with
    | .next t => execAll is t
    | .fault r => .fault r
    | .refused r => .refused r

/-- Commands that write words of the table (rule R52). -/
def changesTable : Instr → Bool
  | .nop => false
  | .cfg _ => false
  | .rds _ => false
  | .starts _ => false
  | .step _ => false
  | .tinit => true
  | .txor _ => true
  | .trd _ => false
  | .seed => false
  | .upd _ => true
  | .run => true
  | .rdr _ => false
  | .verify => true

/-! ### The invariant -/

/-- What every state of the block meets from reset on. -/
structure State.Inv (s : State) : Prop where
  /-- The parameters are in range (rules R5 to R7). -/
  params : s.params.Valid
  /-- `K_MIN ≤ K` (rule R27). -/
  kLow : K_MIN ≤ s.k.toNat
  /-- `K ≤ K_MAX` (rule R27). -/
  kHigh : s.k.toNat ≤ s.params.kMax
  /-- The table is in canonical form. -/
  tableWf : Memory.wf s.table
  /-- The table fits the physical memory of `2^K_MAX` words (rule R23). -/
  tableFits : ∀ c ∈ s.table, c.1 < 2 ^ s.params.kMax
  /-- Every valid stream register holds a term of the sequence (rule R35). -/
  streams : s.svalid = true → ∀ j, ∃ m, s.readRan j = term m
  /-- `VDONE = 1` means `ERRCNT` and `PASS` are about the table as it stands now (rules R28, R29, R153). -/
  done : s.vdone = true → s.tvalid = true ∧ s.errcnt.toNat = s.mismatches ∧ s.pass = s.withinTolerance
  /-- With `VDONE = 0` there is no result (rules R28, R29). -/
  notDone : s.vdone = false → s.pass = false ∧ s.errcnt = 0#64
  /-- Code 0 means no fault (rule R191). -/
  noFault : s.fault = false → s.cause = 0#4
  /-- A faulted block holds one of the seven codes (rules R31, R191). -/
  faultCode : s.fault = true → 1 ≤ s.cause.toNat ∧ s.cause.toNat ≤ 7

/-! ### What the host can tell apart -/

/-- Two states that agree on everything the rules give a value: all but the working set, a stream file that is not
valid, a table that is not valid, and table words at or past `TableSize` (rules R24 to R26, R36; U15 to U18). -/
structure State.Alike (s t : State) : Prop where
  params : s.params = t.params
  k : s.k = t.k
  tvalid : s.tvalid = t.tvalid
  svalid : s.svalid = t.svalid
  vdone : s.vdone = t.vdone
  pass : s.pass = t.pass
  errcnt : s.errcnt = t.errcnt
  fault : s.fault = t.fault
  cause : s.cause = t.cause
  inputs : s.inputs = t.inputs
  responses : s.responses = t.responses
  ran : s.svalid = true → s.ran = t.ran
  table : s.tvalid = true → ∀ i, i < s.tableSize → s.readTable i = t.readTable i

end Sys2Proof.Machine
end

