-- ==== Sys2Proof/Certificates/Slice0/Obligations.lean ====
section
/-! DEFINITION. The statements about the block, from the numbered rules of the spec. Rule numbers are those of spec/. -/

open Sys2Proof Sys2Proof.Machine

/-! ### Encoding -/

/-- Rules R72 to R75, R84: no operand bit is lost between the encoder and the decoder, for every command and operand. -/
def Obligations.DecodeReadsEncodedCommand : Prop :=
  ∀ i : Instr, i.wellFormed = true → decode (encode i) = .command i

/-- Rules R72 to R77: the decoder drops no bit of a word it accepts, and accepts only well-formed commands. -/
def Obligations.EncodeRebuildsDecodedWord : Prop :=
  ∀ (w : BitVec 68) (i : Instr), decode w = .command i → i.wellFormed = true ∧ encode i = w

/-- Rule R86: a word is selected by the opcode bits of a row; with a reserved bit of that row set it is refused as
such, without one it is a command of that opcode; a word no row selects has a reserved opcode. -/
def Obligations.OpcodeTableRowsSelectWords : Prop :=
  ∀ w : BitVec 68,
    (∀ r ∈ opcodeRows, w &&& opcodeMask = r.1 →
      (w &&& r.2 ≠ 0#68 → decode w = .error .reservedBits) ∧
      (w &&& r.2 = 0#68 → ∃ i, decode w = .command i ∧ i.opcode = opField r.1)) ∧
    ((∀ r ∈ opcodeRows, w &&& opcodeMask ≠ r.1) → decode w = .error .illegalOp)

/-- Words the spec prints, two of format Z and one of every other, decode to the commands written beside them:
45_system_commands.md R181 (`CFG 10`), 95_test_vectors.md section 4 (`STARTS -1`), section 5.2 (`TRD 2^60 - 1`) and section
5.1 (the rest). -/
def Obligations.SampleWordsDecode : Prop :=
  decode 0x00000000000000000#68 = .command .nop ∧
  decode 0x1000000000000000A#68 = .command (.cfg 10) ∧
  decode 0x20000000000000003#68 = .command (.rds 3) ∧
  decode 0x3FFFFFFFFFFFFFFFF#68 = .command (.starts (BitVec.ofInt 64 (-1))) ∧
  decode 0x4000000000000007F#68 = .command (.step 127#7) ∧
  decode 0x6FFFFFFFFFFFFFF85#68 = .command (.txor 0xFFFFFFFFFFFFFF85#64) ∧
  decode 0x70FFFFFFFFFFFFFFF#68 = .command (.trd (2 ^ 60 - 1)) ∧
  decode 0xC0000000000000000#68 = .command .verify

/-- Rule R79: the fault flag is bit 64 of the response word, the datum bits 63 to 0. -/
def Obligations.ResponseWordFields : Prop :=
  ∀ (f : Bool) (d : Word), (responseWord f d).getLsbD 64 = f ∧ (responseWord f d).extractLsb' 0 64 = d

/-- Rules R84, R85: lines and pseudo-commands assemble to the words the spec prints for them. -/
def Obligations.AssemblerLinesEncode : Prop :=
  assembleLine "STARTS -1".toList = some [0x3FFFFFFFFFFFFFFFF#68] ∧
  assembleLine "STEP s5 ; stream five".toList = some [0x40000000000000005#68] ∧
  assembleLine "BENCH 7".toList =
    some [0x10000000000000007#68, 0x50000000000000000#68, 0xA0000000000000000#68, 0xC0000000000000000#68] ∧
  assembleLine "ERRS".toList = some [0x20000000000000004#68] ∧
  assembleLine "STATUS".toList = some [0x20000000000000000#68]

/-! ### The command channel -/

/-- Rules R70, R71: one step takes the oldest command word, which leaves the channel, and carries it out. -/
def Obligations.StepRunsDecodedCommand : Prop :=
  ∀ (s : State) (w : BitVec 68) (rest : List Input) (i : Instr),
    s.inputs = .command w :: rest → decode w = .command i → step s = exec i { s with inputs := rest }

/-- Rules R71, R200, R201: every step answers a next state; the block has nothing it stops on. -/
def Obligations.EveryStepCompletes : Prop := ∀ s : State, Completes (step s)

/-- Rule R70: every command word accepted, of whatever kind and in whatever state, gets exactly one response, and
nothing delivered before is changed. -/
def Obligations.OneResponsePerCommand : Prop :=
  ∀ (s : State) (w : BitVec 68) (rest : List Input), s.inputs = .command w :: rest →
    ∃ t r, step s = .next t ∧ t.responses = s.responses ++ [r] ∧ t.inputs = rest

/-- With nothing pending the block waits (rule R213); that this is a step that changes nothing is the model's choice
(log entry 1, DESIGN CHOICE). -/
def Obligations.WaitingBlockIsUnchanged : Prop := ∀ s : State, s.inputs = [] → step s = .next s

/-! ### Faults -/

/-- Rules R78, R191, R199, R223: the first failing check, in the order the rules give, decides the fault, and a command
that passes every check takes none. -/
def Obligations.FirstFailingCheckRaises : Prop :=
  ∀ (s : State) (w : BitVec 68) (rest : List Input), s.fault = false → s.inputs = .command w :: rest →
    (s.firstFault (opField w).toNat (argField w).toNat = 0 → ∃ t, step s = .next t ∧ t.fault = false) ∧
    (∀ c, s.firstFault (opField w).toNat (argField w).toNat = c → c ≠ 0 →
      step s = .next { s with inputs := rest, fault := true, cause := BitVec.ofNat 4 c,
                              responses := s.responses ++ [responseWord true (BitVec.ofNat 64 c)] })

/-- Rules R193, R194: a reserved opcode raises code 1; an assigned opcode with a reserved bit of its format set raises
code 2. -/
def Obligations.MalformedWordsRaise : Prop :=
  ∀ (s : State) (w : BitVec 68) (rest : List Input), s.fault = false → s.inputs = .command w :: rest →
    (0xD ≤ (opField w).toNat →
      step s = .next { s with inputs := rest, fault := true, cause := 1#4,
                              responses := s.responses ++ [responseWord true 1#64] }) ∧
    (∀ r ∈ opcodeRows, w &&& opcodeMask = r.1 → w &&& r.2 ≠ 0#68 →
      step s = .next { s with inputs := rest, fault := true, cause := 2#4,
                              responses := s.responses ++ [responseWord true 2#64] })

/-- Rule R200: a command that takes a fault has no other effect than `FAULT`, `CAUSE` and a response with the code. -/
def Obligations.FaultEntryIsPrecise : Prop :=
  ∀ (s t : State) (w : BitVec 68) (rest : List Input), s.fault = false → s.inputs = .command w :: rest →
    step s = .next t → t.fault = true →
    ∃ x : Cause, t = { s with inputs := rest, fault := true, cause := x.code,
                              responses := s.responses ++ [responseWord true (x.code.setWidth 64)] }

/-- Rule R201: while `FAULT = 1` every word, whatever it is, is refused: no state changes, the first cause answers. -/
def Obligations.FaultedBlockRefusesEveryCommand : Prop :=
  ∀ (s : State) (w : BitVec 68) (rest : List Input), s.fault = true → s.inputs = .command w :: rest →
    step s = .next { s with inputs := rest, responses := s.responses ++ [responseWord true (s.cause.setWidth 64)] }

/-- Rule R204: only reset leaves the faulted state, and it loses the table, the streams and the results. -/
def Obligations.OnlyResetLeavesTheFaultedState : Prop :=
  ∀ (s t : State) (x : Input) (rest : List Input), s.fault = true → s.inputs = x :: rest → step s = .next t →
    (t.fault = false ↔ ∀ w, x ≠ .command w) ∧
    (t.fault = false → t.tvalid = false ∧ t.svalid = false ∧ t.vdone = false ∧ t.pass = false ∧ t.errcnt = 0#64)

/-! ### Reset -/

/-- Rules R36, R7: the state right after reset with the default parameters, for every item the rules give a value. -/
def Obligations.ResetStateValues : Prop :=
  State.reset.fault = false ∧ State.reset.cause = 0#4 ∧ State.reset.k = 28#6 ∧ State.reset.tvalid = false ∧
  State.reset.svalid = false ∧ State.reset.vdone = false ∧ State.reset.pass = false ∧ State.reset.errcnt = 0#64 ∧
  State.reset.params = ⟨28, 28, 1, 100⟩

/-- Rules R220, R221: reset, between commands or in the middle of one, gives every item the value of rule R36 and
delivers no response. Of storage that rule R36 leaves unspecified the statement says nothing. -/
def Obligations.ResetGivesResetValues : Prop :=
  ∀ (s : State) (x : Input) (rest : List Input), s.inputs = x :: rest → (∀ w, x ≠ .command w) →
    ∃ t, step s = .next t ∧ t.fault = false ∧ t.cause = 0#4 ∧ t.k = BitVec.ofNat 6 s.params.kReset ∧
      t.tvalid = false ∧ t.svalid = false ∧ t.vdone = false ∧ t.pass = false ∧ t.errcnt = 0#64 ∧
      t.params = s.params ∧ t.inputs = rest ∧ t.responses = s.responses

/-! ### System commands -/

/-- Rule R180: `NOP` responds zero and changes nothing. -/
def Obligations.NopRespondsZero : Prop :=
  ∀ s : State, s.fault = false →
    exec .nop s = .next { s with responses := s.responses ++ [responseWord false 0#64] }

/-- Rule R181: `CFG k` in range sets `K`, clears the four flags and `ERRCNT`, and leaves all else as it was. -/
def Obligations.CfgChoosesTableSize : Prop :=
  ∀ (s : State) (k : Nat), s.fault = false → 7 ≤ k → k ≤ s.params.kMax → s.params.kMax ≤ 60 →
    ∃ t, exec (.cfg k) s = .next t ∧ t.k.toNat = k ∧
      t = { s with k := t.k, tvalid := false, svalid := false, vdone := false, pass := false, errcnt := 0#64,
                   responses := s.responses ++ [responseWord false 0#64] }

/-- Rule R195: `CFG k` out of range raises `AllocFail`, code 3, `K` and the flags unchanged, and is terminal: every
further command is refused. -/
def Obligations.CfgOutOfRangeIsTerminal : Prop :=
  ∀ (s : State) (k : Nat), s.fault = false → k < 7 ∨ s.params.kMax < k →
    ∃ t, exec (.cfg k) s = .next t ∧
      t = { s with fault := true, cause := 3#4, responses := s.responses ++ [responseWord true 3#64] } ∧
      ∀ i, exec i t = .next { t with responses := t.responses ++ [responseWord true 3#64] }

/-- Rules R32, R33, R182: what each of the five status registers reads as; nothing but the response changes. -/
def Obligations.RdsReadsStatusRegisters : Prop :=
  ∀ (s : State) (c : Nat), s.fault = false → c ≤ 4 → s.k.toNat ≤ 60 →
    ∃ d, exec (.rds c) s = .next { s with responses := s.responses ++ [responseWord false d] } ∧
      (c = 0 → d.getLsbD 0 = s.tvalid ∧ d.getLsbD 1 = s.svalid ∧ d.getLsbD 2 = s.vdone ∧ d.getLsbD 3 = s.pass ∧
        ∀ b, 4 ≤ b → d.getLsbD b = false) ∧
      (c = 1 → d.toNat = s.k.toNat) ∧
      (c = 2 → d.toNat = 2 ^ s.k.toNat) ∧
      (c = 3 → d.toNat = 2 ^ (s.k.toNat + 2)) ∧
      (c = 4 → d = s.errcnt)

/-- Rule R196: `RDS c` of an unassigned number raises `BadCsr`, code 4. -/
def Obligations.RdsUnassignedNumberRaises : Prop :=
  ∀ (s : State) (c : Nat), s.fault = false → 5 ≤ c → c ≤ 15 →
    exec (.rds c) s =
      .next { s with fault := true, cause := 4#4, responses := s.responses ++ [responseWord true 4#64] }

/-! ### The sequence -/

/-- Rule R90: the transition rule, as a formula and bit by bit. -/
def Obligations.TransitionBitByBit : Prop :=
  ∀ v : Word,
    T v = (v <<< 1) ^^^ (if v.getLsbD 63 = true then 7#64 else 0#64) ∧
    (T v).getLsbD 0 = v.getLsbD 63 ∧
    (T v).getLsbD 1 = (v.getLsbD 0 ^^ v.getLsbD 63) ∧
    (T v).getLsbD 2 = (v.getLsbD 1 ^^ v.getLsbD 63) ∧
    ∀ i, 3 ≤ i → i ≤ 63 → (T v).getLsbD i = v.getLsbD (i - 1)

/-- Rule R91: `T` is linear and bijective with the inverse the rule gives, never takes a non-zero state to zero, and
its first terms are the powers of two, then 7. -/
def Obligations.TransitionIsLinearBijection : Prop :=
  (∀ a b : Word, T (a ^^^ b) = T a ^^^ T b) ∧ T 0#64 = 0#64 ∧
  (∀ v w : Word, T v = w ↔
    v = ((w ^^^ (if w.getLsbD 0 = true then 7#64 else 0#64)) >>> 1) |||
        (if w.getLsbD 0 = true then 0x8000000000000000#64 else 0#64)) ∧
  (∀ v : Word, v ≠ 0#64 → T v ≠ 0#64) ∧
  (∀ n, n ≤ 63 → T^[n] 1#64 = BitVec.twoPow 64 n) ∧ T^[64] 1#64 = 7#64

/-- Rules R10, R91: reading a word as a polynomial over GF(2), `T` is multiplication by `x` modulo
`P(x) = x^64 + x^2 + x + 1`: it falls short of `x · v(x)` by `P(x)` exactly when bit 63 was set. -/
def Obligations.TransitionMultipliesByX : Prop :=
  ∀ v : Word,
    (Polynomial.X : Polynomial (ZMod 2)) *
        (∑ j ∈ Finset.range 64, if v.getLsbD j = true then (Polynomial.X : Polynomial (ZMod 2)) ^ j else 0) =
      (∑ j ∈ Finset.range 64, if (T v).getLsbD j = true then (Polynomial.X : Polynomial (ZMod 2)) ^ j else 0) +
        (if v.getLsbD 63 = true then
          (Polynomial.X : Polynomial (ZMod 2)) ^ 64 + Polynomial.X ^ 2 + Polynomial.X + 1 else 0)

/-- Rule R93: the literal's arithmetic; the sequence from state 1 repeats after `PERIOD` terms and after no fewer, the
prime divisors of `PERIOD` being the six the rule names; and `starts(PERIOD)` is `starts(0)`. The factors and the terms
at `PERIOD / p` are the rule's audit of the figure, which the spec marks as derived. -/
def Obligations.SequenceHasExactPeriod : Prop :=
  PERIOD = 1317624576693539401 ∧ 7 * PERIOD = 2 ^ 63 - 1 ∧
  PERIOD = 7 * 73 * 127 * 337 * 92737 * 649657 ∧
  (∀ p ∈ [7, 73, 127, 337, 92737, 649657], p.Prime ∧ T^[PERIOD / p] 1#64 ≠ 1#64) ∧
  (∀ n, T^[n + PERIOD] 1#64 = T^[n] 1#64) ∧
  T^[PERIOD] 1#64 = 1#64 ∧ (∀ m, 0 < m → m < PERIOD → T^[m] 1#64 ≠ 1#64) ∧
  ∀ w : Work, (w.jumpAhead (BitVec.ofNat 64 PERIOD)).2 = (w.jumpAhead 0#64).2

/-- Rule R92: `STEP j` advances stream `j` by one transition and responds with its new value; the other streams, the
table and everything else are unchanged. -/
def Obligations.StepAdvancesOneStream : Prop :=
  ∀ (s : State) (j : BitVec 7), s.fault = false → s.svalid = true →
    ∃ t, exec (.step j) s = .next t ∧ t.readRan j = T (s.readRan j) ∧
      (∀ l, l ≠ j → t.readRan l = s.readRan l) ∧
      t = { s with ran := t.ran, responses := s.responses ++ [responseWord false (T (s.readRan j))] }

/-- Rule R129: `RDR j` responds with stream register `j` and changes nothing. -/
def Obligations.RdrReadsOneStream : Prop :=
  ∀ (s : State) (j : BitVec 7), s.fault = false → s.svalid = true →
    exec (.rdr j) s = .next { s with responses := s.responses ++ [responseWord false (s.readRan j)] }

/-- Rule R197: `STEP`, `RDR`, and `UPD` once the table check of rule R199 has passed, raise `StreamsNotInit`, code 6,
while `SVALID = 0`. -/
def Obligations.StreamReadersNeedSeededStreams : Prop :=
  ∀ (s : State) (j : BitVec 7), s.fault = false → s.svalid = false →
    exec (.step j) s =
      .next { s with fault := true, cause := 6#4, responses := s.responses ++ [responseWord true 6#64] } ∧
    exec (.rdr j) s =
      .next { s with fault := true, cause := 6#4, responses := s.responses ++ [responseWord true 6#64] } ∧
    (s.tvalid = true → exec (.upd j) s =
      .next { s with fault := true, cause := 6#4, responses := s.responses ++ [responseWord true 6#64] })

/-! ### Jump-ahead -/

/-- Rule R104: MSB finds the largest set bit of `JN`, at most 60 for a normalised operand. -/
def Obligations.MsbFindsTopBit : Prop :=
  ∀ w : Work, w.jn ≠ 0#64 → w.jn.toNat ≤ PERIOD →
    w.jn.getLsbD w.msb.ji.toNat = true ∧ (∀ i, w.msb.ji.toNat < i → w.jn.getLsbD i = false) ∧ w.msb.ji.toNat ≤ 60

/-- Rules R100 to R105, R107: what a `STARTS` that builds leaves in the working set: the normalised operand, the
constant rows of the squaring matrix, the bit index counted down to zero, the result in `JRAN`. -/
def Obligations.StartsLeavesWorkingSet : Prop :=
  ∀ (s : State) (n : Word), s.fault = false → normInt n.toInt ≠ 0 →
    ∃ t, exec (.starts n) s = .next t ∧ t.work.jn.toInt = normInt n.toInt ∧ t.work.ji = 0#6 ∧
      t.work.jran = T^[(normInt n.toInt).toNat] 1#64 ∧
      (∀ i, i < 32 → t.work.readM2 (BitVec.ofNat 6 i) = BitVec.twoPow 64 (2 * i)) ∧
      (∀ i, 32 ≤ i → i < 63 → t.work.readM2 (BitVec.ofNat 6 i) = 7#64 <<< (2 * (i - 32))) ∧
      t.work.readM2 63#6 = 0xC000000000000007#64 ∧
      t.work.vran = s.work.vran ∧ t.work.i = s.work.i ∧ t.work.j = s.work.j

/-- Rule R106 for `STARTS n`, any operand in any state that is not faulted: the algorithm answers exactly the state
that `n` transitions from 1 give, by the normalised operand, for `n ≥ 0`, and for `n < 0`; only the working set and
the response change. The clauses for `n ≥ 0` and `n < 0` are the rule's sentence "`T^nn(1) = T^n(1)` for n ≥ 0 and, for
n < 0, `starts(n)` is the state from which `−n` transitions lead to 1", which the spec marks as derived. -/
def Obligations.StartsAnswersNthTerm : Prop :=
  ∀ (s : State) (n : Word), s.fault = false →
    ∃ t v, exec (.starts n) s = .next t ∧
      t = { s with work := t.work, responses := s.responses ++ [responseWord false v] } ∧
      (normInt n.toInt = 0 → v = 1#64) ∧
      v = T^[(normInt n.toInt).toNat] 1#64 ∧
      (0 ≤ n.toInt → v = T^[n.toInt.toNat] 1#64) ∧
      (n.toInt < 0 → T^[(-n.toInt).toNat] v = 1#64)

/-- Rule R109: `starts(0) = 1`; `starts(PERIOD) = starts(0)`, through the algorithm since NORM leaves `PERIOD` alone;
`starts(n + PERIOD) = starts(n)` where the sum is still an `s64`. -/
def Obligations.StartsIsPeriodic : Prop :=
  ∀ w : Work,
    (w.jumpAhead 0#64).2 = 1#64 ∧
    (w.jumpAhead (BitVec.ofNat 64 PERIOD)).2 = (w.jumpAhead 0#64).2 ∧
    (w.norm (BitVec.ofNat 64 PERIOD)).jn = BitVec.ofNat 64 PERIOD ∧
    ∀ n : Word, n.toInt + (PERIOD : Int) < 2 ^ 63 →
      (w.jumpAhead (n + BitVec.ofNat 64 PERIOD)).2 = (w.jumpAhead n).2

/-- Rule R126: `SEED` puts `T^(B·j)(1)` into every stream `j`, `B = 2^(K-5)`, and sets `SVALID`; the table, its flag and
the results are unchanged, and it needs no table. -/
def Obligations.SeedSetsEveryStream : Prop :=
  ∀ s : State, s.fault = false → 7 ≤ s.k.toNat → s.k.toNat ≤ 60 →
    ∃ t, exec .seed s = .next t ∧ (∀ j, t.readRan j = T^[2 ^ (s.k.toNat - 5) * j.toNat] 1#64) ∧
      t = { s with ran := t.ran, work := t.work, svalid := true,
                   responses := s.responses ++ [responseWord false 0#64] }

/-! ### The table -/

/-- Rule R53: the masked index is `v[K-1:0]`, that is `v mod TableSize`, always in range, a masked access never faults
on it, and the bits above it are part of the data XORed into the word, not of the address. -/
def Obligations.MaskedIndexIsModulo : Prop :=
  ∀ (s : State) (v : Word),
    s.index v = v.toNat % 2 ^ s.k.toNat ∧ s.index v = (v.extractLsb' 0 s.k.toNat).toNat ∧ s.index v < s.tableSize ∧
    (s.fault = false → s.tvalid = true → ∃ t, exec (.txor v) s = .next t ∧ t.fault = false ∧
      (Memory.wf s.table → t.readTable (s.index v) = s.readTable (s.index v) ^^^ v))

/-- Rule R121: `TINIT` makes every word below `TableSize` its index, whatever it was; words past it, the streams and
`SVALID` are unchanged; `TVALID` is set, the results cleared. -/
def Obligations.TinitMakesTheTableTheIdentity : Prop :=
  ∀ s : State, s.fault = false →
    ∃ t, exec .tinit s = .next t ∧
      (∀ i, t.readTable i = if i < 2 ^ s.k.toNat then BitVec.ofNat 64 i else s.readTable i) ∧
      t.work = { s.work with i := t.work.i } ∧
      t = { s with table := t.table, work := t.work, tvalid := true, vdone := false, pass := false, errcnt := 0#64,
                   responses := s.responses ++ [responseWord false 0#64] }

/-- Rule R121: the model's one-go initialisation is the rule's loop of single writes (log entry 13). -/
def Obligations.TinitIsTheLoopOfWrites : Prop :=
  ∀ (m : Memory) (n : Nat), Memory.wf m →
    Memory.init n m = iter n (fun i m => Memory.write m i (BitVec.ofNat 64 i)) m

/-- Rules R122, R123: `TXOR v` XORs the whole of `v` into the one word at `v & MASK` and clears the results; every
other word and everything else is unchanged. -/
def Obligations.TxorUpdatesOneWord : Prop :=
  ∀ (s : State) (v : Word), s.fault = false → s.tvalid = true → Memory.wf s.table →
    ∃ t, exec (.txor v) s = .next t ∧
      (∀ a, t.readTable a =
        if a = (v &&& BitVec.ofNat 64 (2 ^ s.k.toNat - 1)).toNat then s.readTable a ^^^ v else s.readTable a) ∧
      t = { s with table := t.table, vdone := false, pass := false, errcnt := 0#64,
                   responses := s.responses ++ [responseWord false 0#64] }

/-- Rule R124: `TRD i` below `TableSize` responds with the word and changes nothing. -/
def Obligations.TrdReadsOneWord : Prop :=
  ∀ (s : State) (i : Nat), s.fault = false → s.tvalid = true → i < 2 ^ s.k.toNat →
    exec (.trd i) s = .next { s with responses := s.responses ++ [responseWord false (s.readTable i)] }

/-- Rule R202: `TRD i` at or past `TableSize` raises `IndexRange`, code 7; no masked access raises it. -/
def Obligations.OnlyDirectIndexCanBeOutOfRange : Prop :=
  ∀ s : State, s.fault = false → s.tvalid = true →
    (∀ i, 2 ^ s.k.toNat ≤ i → exec (.trd i) s =
      .next { s with fault := true, cause := 7#4, responses := s.responses ++ [responseWord true 7#64] }) ∧
    (∀ v, ∃ t, exec (.txor v) s = .next t ∧ t.fault = false) ∧
    (∀ j, s.svalid = true → ∃ t, exec (.upd j) s = .next t ∧ t.fault = false) ∧
    (∃ t, exec .run s = .next t ∧ t.fault = false) ∧
    (∃ t, exec .verify s = .next t ∧ t.fault = false)

/-- Rule R198: every command that reads the table raises `TableNotInit`, code 5, while `TVALID = 0`. -/
def Obligations.TableReadersNeedInitialisedTable : Prop :=
  ∀ s : State, s.fault = false → s.tvalid = false →
    ∀ i : Instr, ((∃ v, i = .txor v) ∨ (∃ a, i = .trd a) ∨ (∃ j, i = .upd j) ∨ i = .run ∨ i = .verify) →
      exec i s = .next { s with fault := true, cause := 5#4, responses := s.responses ++ [responseWord true 5#64] }

/-- Rule R127: `UPD j` advances stream `j` first, then XORs its NEW value into the word that value indexes, responds
with it and clears the results; the other streams, the other words and everything else are unchanged. -/
def Obligations.UpdAdvancesThenUpdates : Prop :=
  ∀ (s : State) (j : BitVec 7), s.fault = false → s.tvalid = true → s.svalid = true → Memory.wf s.table →
    ∃ t v, exec (.upd j) s = .next t ∧ v = T (s.readRan j) ∧ t.readRan j = v ∧
      (∀ l, l ≠ j → t.readRan l = s.readRan l) ∧
      (∀ a, t.readTable a =
        if a = (v &&& BitVec.ofNat 64 (2 ^ s.k.toNat - 1)).toNat then s.readTable a ^^^ v else s.readTable a) ∧
      t = { s with ran := t.ran, table := t.table, vdone := false, pass := false, errcnt := 0#64,
                   responses := s.responses ++ [responseWord false v] }

/-- Rule R59: a list of updates leaves in each word the XOR of the values whose masked index it is, whatever the
order of application. -/
def Obligations.XorUpdatesAreOrderIndependent : Prop :=
  ∀ (s : State) (us : List Word), Memory.wf s.table →
    (∀ a, (us.foldl State.xupd s).readTable a =
      us.foldl (fun x v => if v.toNat % 2 ^ s.k.toNat = a then x ^^^ v else x) (s.readTable a)) ∧
    ∀ vs : List Word, us.Perm vs → us.foldl State.xupd s = vs.foldl State.xupd s

/-- Rules R56, R123: the same `TXOR` twice in a row restores the table. -/
def Obligations.TxorTwiceRestoresTheTable : Prop :=
  ∀ (s : State) (v : Word), s.fault = false → s.tvalid = true → Memory.wf s.table →
    ∃ t u, exec (.txor v) s = .next t ∧ exec (.txor v) t = .next u ∧ u.table = s.table

/-! ### The update phase and its verification -/

/-- Rules R128, R130: after `RUN`, stream `j` has owned the block of `B` terms after its seed, and the table is what a
single stream of all `NUPDATE` terms gives; all else but the cleared results is unchanged. -/
def Obligations.RunAppliesTheWholeSequence : Prop :=
  ∀ s : State, s.fault = false → s.tvalid = true → 7 ≤ s.k.toNat → s.k.toNat ≤ 60 → Memory.wf s.table →
    ∃ t, exec .run s = .next t ∧
      (∀ j, t.readRan j = T^[2 ^ (s.k.toNat - 5) * (j.toNat + 1)] 1#64) ∧
      (∀ a, t.readTable a = s.readTable a ^^^ s.streamXor a (2 ^ (s.k.toNat + 2))) ∧
      t = { s with ran := t.ran, table := t.table, work := t.work, svalid := true, vdone := false, pass := false,
                   errcnt := 0#64, responses := s.responses ++ [responseWord false 0#64] }

/-- Rule R128: `RUN` is `SEED` followed by `B` rounds of `UPD 0 … UPD 127`, but for the responses and the working set. -/
def Obligations.RunIsSeedThenRoundsOfUpdates : Prop :=
  ∀ s : State, s.fault = false → s.tvalid = true → 7 ≤ s.k.toNat →
    ∃ t u, exec .run s = .next t ∧
      execAll (.seed :: (List.replicate (2 ^ (s.k.toNat - 5))
        ((List.range 128).map fun j => Instr.upd (BitVec.ofNat 7 j))).flatten) s = .next u ∧
      u = { t with work := u.work, responses := u.responses }

/-- Rule R128: a second `RUN` applies the same values again and restores the table of before the first. -/
def Obligations.SecondRunRestoresTheTable : Prop :=
  ∀ s : State, s.fault = false → s.tvalid = true → 7 ≤ s.k.toNat → s.k.toNat ≤ 60 → Memory.wf s.table →
    ∃ t u, exec .run s = .next t ∧ exec .run t = .next u ∧ u.table = s.table

/-- Rules R151 to R154, R156: `VERIFY` applies the sequence from a single stream, counts the words that differ from
their index, judges the count against the tolerance on exact integers, takes no fault whatever the count, and leaves
the streams and everything else unchanged. -/
def Obligations.VerifyReplaysCountsAndJudges : Prop :=
  ∀ s : State, s.fault = false → s.tvalid = true → Memory.wf s.table →
    ∃ t, exec .verify s = .next t ∧
      (∀ a, t.readTable a = s.readTable a ^^^ s.streamXor a (4 * 2 ^ s.k.toNat)) ∧
      t.errcnt.toNat = Nat.count (fun i => t.readTable i ≠ BitVec.ofNat 64 i) (2 ^ s.k.toNat) ∧
      (t.pass = true ↔ t.errcnt.toNat * s.params.tolDen ≤ 2 ^ s.k.toNat * s.params.tolNum) ∧
      t = { s with table := t.table, work := t.work, errcnt := t.errcnt, pass := t.pass, vdone := true,
                   responses := s.responses ++ [responseWord false t.errcnt] }

/-- Rule R155: for every table size, `TINIT`, `RUN`, `VERIFY`, with any commands between them that do not change the
table, ends, unless one of those commands took a fault, with no error, `PASS` set and the identity table; with nothing
between them it takes no fault. The spec marks the rule's sentence as derived (from rules R130, R151, R59). -/
def Obligations.PipelineEndsWithNoErrors : Prop :=
  ∀ (s : State) (as bs : List Instr), s.fault = false → 7 ≤ s.k.toNat → s.k.toNat ≤ 60 → Memory.wf s.table →
    (∀ i ∈ as ++ bs, changesTable i = false) →
    ∃ t, execAll (.tinit :: as ++ .run :: bs ++ [.verify]) s = .next t ∧
      (t.fault = false → t.errcnt = 0#64 ∧ t.pass = true ∧
        ∀ i, i < 2 ^ s.k.toNat → t.readTable i = BitVec.ofNat 64 i) ∧
      (as = [] → bs = [] → t.fault = false)

/-! ### Invariants and whole-machine rules -/

/-- Rules R5 to R7, R36: the state right after reset meets the invariant, for every legal set of parameters. -/
def Obligations.ResetMeetsTheInvariant : Prop := ∀ p : Params, p.Valid → (State.resetWith p).Inv

/-- Rules R23, R27, R28, R29, R31, R35, R191: every step, of any kind, keeps the invariant. -/
def Obligations.EveryStepKeepsTheInvariant : Prop := ∀ s t : State, s.Inv → step s = .next t → t.Inv

/-- Rules R24 to R26, R36, U15 to U18: storage the rules leave unspecified is never observed: two states that agree on
everything the rules give a value take steps to states that agree so, with the same responses. -/
def Obligations.UnspecifiedStorageNeverShows : Prop :=
  ∀ s t : State, s.Alike t → Memory.wf s.table → Memory.wf t.table →
    ∃ s' t', step s = .next s' ∧ step t = .next t' ∧ s'.Alike t'

/-- Rule R35: no command writes zero into a stream register that can be read, and `STARTS` never answers zero. -/
def Obligations.NoGeneratorStateIsZero : Prop :=
  (∀ s t : State, s.Inv → step s = .next t → t.svalid = true → ∀ j, t.readRan j ≠ 0#64) ∧
  ∀ (w : Work) (n : Word), (w.jumpAhead n).2 ≠ 0#64

/-- Rules R28, R29: which command sets and clears each flag and `ERRCNT`, for every command that takes no fault. -/
def Obligations.FlagsChangeAsTheirTableSays : Prop :=
  ∀ (i : Instr) (s t : State), s.fault = false → exec i s = .next t → t.fault = false →
    t.tvalid = (match i with | .tinit => true | .cfg _ => false | _ => s.tvalid) ∧
    t.svalid = (match i with | .seed => true | .run => true | .cfg _ => false | _ => s.svalid) ∧
    t.vdone = (match i with
      | .verify => true
      | .cfg _ => false | .tinit => false | .txor _ => false | .upd _ => false | .run => false
      | _ => s.vdone) ∧
    t.pass = (match i with
      | .verify => decide (t.errcnt.toNat * s.params.tolDen ≤ 2 ^ s.k.toNat * s.params.tolNum)
      | .cfg _ => false | .tinit => false | .txor _ => false | .upd _ => false | .run => false
      | _ => s.pass) ∧
    t.errcnt.toNat = (match i with
      | .verify => Nat.count (fun a => t.readTable a ≠ BitVec.ofNat 64 a) (2 ^ s.k.toNat)
      | .cfg _ => 0 | .tinit => 0 | .txor _ => 0 | .upd _ => 0 | .run => 0
      | _ => s.errcnt.toNat)

/-- Rules R22, R228: only `SEED` and `RUN` write the whole stream file, `STEP j` and `UPD j` write register `j` and no
other, and no other command writes any. -/
def Obligations.OnlyStreamCommandsWriteStreams : Prop :=
  ∀ (i : Instr) (s t : State), exec i s = .next t →
    (i = .seed ∨ i = .run) ∨ ∀ l, t.readRan l = s.readRan l ∨ i = .step l ∨ i = .upd l

/-- Rule R52: only `TINIT`, `TXOR`, `UPD`, `RUN` and `VERIFY` write the table, and all but `TINIT` only when it is
valid. -/
def Obligations.OnlyTableCommandsWriteTheTable : Prop :=
  ∀ (i : Instr) (s t : State), exec i s = .next t →
    t.table = s.table ∨ i = .tinit ∨
      (s.tvalid = true ∧ ((∃ v, i = .txor v) ∨ (∃ j, i = .upd j) ∨ i = .run ∨ i = .verify))

/-- Rule R27, and log entry 3: `K` is written only by `CFG`, with its operand, and by reset, with `K_RESET`; the
parameters are written by nothing. -/
def Obligations.OnlyCfgAndResetWriteK : Prop :=
  ∀ s t : State, step s = .next t →
    t.params = s.params ∧
    (t.k = s.k ∨ (∃ w rest k, s.inputs = .command w :: rest ∧ decode w = .command (.cfg k) ∧ t.k = BitVec.ofNat 6 k) ∨
      (∃ x rest, s.inputs = x :: rest ∧ (∀ w, x ≠ .command w) ∧ t.k = BitVec.ofNat 6 s.params.kReset))
end

