-- ==== Sys2Proof/Laws/State.lean ====
section
/-! SUPPORT. One lemma per field of State per update, and per view that the update leaves alone. -/

namespace Sys2Proof.Machine

/-! ### deliver -/

@[simp] theorem State.deliver_params (s : State) (r : Response) : (s.deliver r).params = s.params := rfl
@[simp] theorem State.deliver_ran (s : State) (r : Response) : (s.deliver r).ran = s.ran := rfl
@[simp] theorem State.deliver_table (s : State) (r : Response) : (s.deliver r).table = s.table := rfl
@[simp] theorem State.deliver_work (s : State) (r : Response) : (s.deliver r).work = s.work := rfl
@[simp] theorem State.deliver_k (s : State) (r : Response) : (s.deliver r).k = s.k := rfl
@[simp] theorem State.deliver_tvalid (s : State) (r : Response) : (s.deliver r).tvalid = s.tvalid := rfl
@[simp] theorem State.deliver_svalid (s : State) (r : Response) : (s.deliver r).svalid = s.svalid := rfl
@[simp] theorem State.deliver_vdone (s : State) (r : Response) : (s.deliver r).vdone = s.vdone := rfl
@[simp] theorem State.deliver_pass (s : State) (r : Response) : (s.deliver r).pass = s.pass := rfl
@[simp] theorem State.deliver_errcnt (s : State) (r : Response) : (s.deliver r).errcnt = s.errcnt := rfl
@[simp] theorem State.deliver_fault (s : State) (r : Response) : (s.deliver r).fault = s.fault := rfl
@[simp] theorem State.deliver_cause (s : State) (r : Response) : (s.deliver r).cause = s.cause := rfl
@[simp] theorem State.deliver_inputs (s : State) (r : Response) : (s.deliver r).inputs = s.inputs := rfl
@[simp] theorem State.deliver_responses (s : State) (r : Response) : (s.deliver r).responses = s.responses ++ [r] := rfl
@[simp] theorem State.deliver_tableSize (s : State) (r : Response) : (s.deliver r).tableSize = s.tableSize := rfl
@[simp] theorem State.deliver_nupdate (s : State) (r : Response) : (s.deliver r).nupdate = s.nupdate := rfl
@[simp] theorem State.deliver_rounds (s : State) (r : Response) : (s.deliver r).rounds = s.rounds := rfl
@[simp] theorem State.deliver_mask (s : State) (r : Response) : (s.deliver r).mask = s.mask := rfl
@[simp] theorem State.deliver_index (s : State) (r : Response) (v' : Word) : (s.deliver r).index v' = s.index v' := rfl
@[simp] theorem State.deliver_readTable (s : State) (r : Response) (a : Nat) : (s.deliver r).readTable a = s.readTable a := rfl
@[simp] theorem State.deliver_readRan (s : State) (r : Response) (j' : BitVec 7) : (s.deliver r).readRan j' = s.readRan j' := rfl

/-! ### respond -/

@[simp] theorem State.respond_params (s : State) (d : Word) : (s.respond d).params = s.params := rfl
@[simp] theorem State.respond_ran (s : State) (d : Word) : (s.respond d).ran = s.ran := rfl
@[simp] theorem State.respond_table (s : State) (d : Word) : (s.respond d).table = s.table := rfl
@[simp] theorem State.respond_work (s : State) (d : Word) : (s.respond d).work = s.work := rfl
@[simp] theorem State.respond_k (s : State) (d : Word) : (s.respond d).k = s.k := rfl
@[simp] theorem State.respond_tvalid (s : State) (d : Word) : (s.respond d).tvalid = s.tvalid := rfl
@[simp] theorem State.respond_svalid (s : State) (d : Word) : (s.respond d).svalid = s.svalid := rfl
@[simp] theorem State.respond_vdone (s : State) (d : Word) : (s.respond d).vdone = s.vdone := rfl
@[simp] theorem State.respond_pass (s : State) (d : Word) : (s.respond d).pass = s.pass := rfl
@[simp] theorem State.respond_errcnt (s : State) (d : Word) : (s.respond d).errcnt = s.errcnt := rfl
@[simp] theorem State.respond_fault (s : State) (d : Word) : (s.respond d).fault = s.fault := rfl
@[simp] theorem State.respond_cause (s : State) (d : Word) : (s.respond d).cause = s.cause := rfl
@[simp] theorem State.respond_inputs (s : State) (d : Word) : (s.respond d).inputs = s.inputs := rfl
@[simp] theorem State.respond_responses (s : State) (d : Word) : (s.respond d).responses = s.responses ++ [responseWord false d] := rfl
@[simp] theorem State.respond_tableSize (s : State) (d : Word) : (s.respond d).tableSize = s.tableSize := rfl
@[simp] theorem State.respond_nupdate (s : State) (d : Word) : (s.respond d).nupdate = s.nupdate := rfl
@[simp] theorem State.respond_rounds (s : State) (d : Word) : (s.respond d).rounds = s.rounds := rfl
@[simp] theorem State.respond_mask (s : State) (d : Word) : (s.respond d).mask = s.mask := rfl
@[simp] theorem State.respond_index (s : State) (d : Word) (v' : Word) : (s.respond d).index v' = s.index v' := rfl
@[simp] theorem State.respond_readTable (s : State) (d : Word) (a : Nat) : (s.respond d).readTable a = s.readTable a := rfl
@[simp] theorem State.respond_readRan (s : State) (d : Word) (j' : BitVec 7) : (s.respond d).readRan j' = s.readRan j' := rfl

/-! ### raise -/

@[simp] theorem State.raise_params (s : State) (x : Cause) : (s.raise x).params = s.params := rfl
@[simp] theorem State.raise_ran (s : State) (x : Cause) : (s.raise x).ran = s.ran := rfl
@[simp] theorem State.raise_table (s : State) (x : Cause) : (s.raise x).table = s.table := rfl
@[simp] theorem State.raise_work (s : State) (x : Cause) : (s.raise x).work = s.work := rfl
@[simp] theorem State.raise_k (s : State) (x : Cause) : (s.raise x).k = s.k := rfl
@[simp] theorem State.raise_tvalid (s : State) (x : Cause) : (s.raise x).tvalid = s.tvalid := rfl
@[simp] theorem State.raise_svalid (s : State) (x : Cause) : (s.raise x).svalid = s.svalid := rfl
@[simp] theorem State.raise_vdone (s : State) (x : Cause) : (s.raise x).vdone = s.vdone := rfl
@[simp] theorem State.raise_pass (s : State) (x : Cause) : (s.raise x).pass = s.pass := rfl
@[simp] theorem State.raise_errcnt (s : State) (x : Cause) : (s.raise x).errcnt = s.errcnt := rfl
@[simp] theorem State.raise_fault (s : State) (x : Cause) : (s.raise x).fault = true := rfl
@[simp] theorem State.raise_cause (s : State) (x : Cause) : (s.raise x).cause = x.code := rfl
@[simp] theorem State.raise_inputs (s : State) (x : Cause) : (s.raise x).inputs = s.inputs := rfl
@[simp] theorem State.raise_responses (s : State) (x : Cause) : (s.raise x).responses = s.responses ++ [responseWord true (x.code.setWidth 64)] := rfl
@[simp] theorem State.raise_tableSize (s : State) (x : Cause) : (s.raise x).tableSize = s.tableSize := rfl
@[simp] theorem State.raise_nupdate (s : State) (x : Cause) : (s.raise x).nupdate = s.nupdate := rfl
@[simp] theorem State.raise_rounds (s : State) (x : Cause) : (s.raise x).rounds = s.rounds := rfl
@[simp] theorem State.raise_mask (s : State) (x : Cause) : (s.raise x).mask = s.mask := rfl
@[simp] theorem State.raise_index (s : State) (x : Cause) (v' : Word) : (s.raise x).index v' = s.index v' := rfl
@[simp] theorem State.raise_readTable (s : State) (x : Cause) (a : Nat) : (s.raise x).readTable a = s.readTable a := rfl
@[simp] theorem State.raise_readRan (s : State) (x : Cause) (j' : BitVec 7) : (s.raise x).readRan j' = s.readRan j' := rfl

/-! ### refuseFaulted -/

@[simp] theorem State.refuseFaulted_params (s : State) : (s.refuseFaulted).params = s.params := rfl
@[simp] theorem State.refuseFaulted_ran (s : State) : (s.refuseFaulted).ran = s.ran := rfl
@[simp] theorem State.refuseFaulted_table (s : State) : (s.refuseFaulted).table = s.table := rfl
@[simp] theorem State.refuseFaulted_work (s : State) : (s.refuseFaulted).work = s.work := rfl
@[simp] theorem State.refuseFaulted_k (s : State) : (s.refuseFaulted).k = s.k := rfl
@[simp] theorem State.refuseFaulted_tvalid (s : State) : (s.refuseFaulted).tvalid = s.tvalid := rfl
@[simp] theorem State.refuseFaulted_svalid (s : State) : (s.refuseFaulted).svalid = s.svalid := rfl
@[simp] theorem State.refuseFaulted_vdone (s : State) : (s.refuseFaulted).vdone = s.vdone := rfl
@[simp] theorem State.refuseFaulted_pass (s : State) : (s.refuseFaulted).pass = s.pass := rfl
@[simp] theorem State.refuseFaulted_errcnt (s : State) : (s.refuseFaulted).errcnt = s.errcnt := rfl
@[simp] theorem State.refuseFaulted_fault (s : State) : (s.refuseFaulted).fault = s.fault := rfl
@[simp] theorem State.refuseFaulted_cause (s : State) : (s.refuseFaulted).cause = s.cause := rfl
@[simp] theorem State.refuseFaulted_inputs (s : State) : (s.refuseFaulted).inputs = s.inputs := rfl
@[simp] theorem State.refuseFaulted_responses (s : State) : (s.refuseFaulted).responses = s.responses ++ [responseWord true (s.cause.setWidth 64)] := rfl
@[simp] theorem State.refuseFaulted_tableSize (s : State) : (s.refuseFaulted).tableSize = s.tableSize := rfl
@[simp] theorem State.refuseFaulted_nupdate (s : State) : (s.refuseFaulted).nupdate = s.nupdate := rfl
@[simp] theorem State.refuseFaulted_rounds (s : State) : (s.refuseFaulted).rounds = s.rounds := rfl
@[simp] theorem State.refuseFaulted_mask (s : State) : (s.refuseFaulted).mask = s.mask := rfl
@[simp] theorem State.refuseFaulted_index (s : State) (v' : Word) : (s.refuseFaulted).index v' = s.index v' := rfl
@[simp] theorem State.refuseFaulted_readTable (s : State) (a : Nat) : (s.refuseFaulted).readTable a = s.readTable a := rfl
@[simp] theorem State.refuseFaulted_readRan (s : State) (j' : BitVec 7) : (s.refuseFaulted).readRan j' = s.readRan j' := rfl

/-! ### setI -/

@[simp] theorem State.setI_params (s : State) (n : Nat) : (s.setI n).params = s.params := rfl
@[simp] theorem State.setI_ran (s : State) (n : Nat) : (s.setI n).ran = s.ran := rfl
@[simp] theorem State.setI_table (s : State) (n : Nat) : (s.setI n).table = s.table := rfl
@[simp] theorem State.setI_work (s : State) (n : Nat) : (s.setI n).work = { s.work with i := BitVec.ofNat 64 n } := rfl
@[simp] theorem State.setI_k (s : State) (n : Nat) : (s.setI n).k = s.k := rfl
@[simp] theorem State.setI_tvalid (s : State) (n : Nat) : (s.setI n).tvalid = s.tvalid := rfl
@[simp] theorem State.setI_svalid (s : State) (n : Nat) : (s.setI n).svalid = s.svalid := rfl
@[simp] theorem State.setI_vdone (s : State) (n : Nat) : (s.setI n).vdone = s.vdone := rfl
@[simp] theorem State.setI_pass (s : State) (n : Nat) : (s.setI n).pass = s.pass := rfl
@[simp] theorem State.setI_errcnt (s : State) (n : Nat) : (s.setI n).errcnt = s.errcnt := rfl
@[simp] theorem State.setI_fault (s : State) (n : Nat) : (s.setI n).fault = s.fault := rfl
@[simp] theorem State.setI_cause (s : State) (n : Nat) : (s.setI n).cause = s.cause := rfl
@[simp] theorem State.setI_inputs (s : State) (n : Nat) : (s.setI n).inputs = s.inputs := rfl
@[simp] theorem State.setI_responses (s : State) (n : Nat) : (s.setI n).responses = s.responses := rfl
@[simp] theorem State.setI_tableSize (s : State) (n : Nat) : (s.setI n).tableSize = s.tableSize := rfl
@[simp] theorem State.setI_nupdate (s : State) (n : Nat) : (s.setI n).nupdate = s.nupdate := rfl
@[simp] theorem State.setI_rounds (s : State) (n : Nat) : (s.setI n).rounds = s.rounds := rfl
@[simp] theorem State.setI_mask (s : State) (n : Nat) : (s.setI n).mask = s.mask := rfl
@[simp] theorem State.setI_index (s : State) (n : Nat) (v' : Word) : (s.setI n).index v' = s.index v' := rfl
@[simp] theorem State.setI_readTable (s : State) (n : Nat) (a : Nat) : (s.setI n).readTable a = s.readTable a := rfl
@[simp] theorem State.setI_readRan (s : State) (n : Nat) (j' : BitVec 7) : (s.setI n).readRan j' = s.readRan j' := rfl

/-! ### setJ -/

@[simp] theorem State.setJ_params (s : State) (n : Nat) : (s.setJ n).params = s.params := rfl
@[simp] theorem State.setJ_ran (s : State) (n : Nat) : (s.setJ n).ran = s.ran := rfl
@[simp] theorem State.setJ_table (s : State) (n : Nat) : (s.setJ n).table = s.table := rfl
@[simp] theorem State.setJ_work (s : State) (n : Nat) : (s.setJ n).work = { s.work with j := BitVec.ofNat 8 n } := rfl
@[simp] theorem State.setJ_k (s : State) (n : Nat) : (s.setJ n).k = s.k := rfl
@[simp] theorem State.setJ_tvalid (s : State) (n : Nat) : (s.setJ n).tvalid = s.tvalid := rfl
@[simp] theorem State.setJ_svalid (s : State) (n : Nat) : (s.setJ n).svalid = s.svalid := rfl
@[simp] theorem State.setJ_vdone (s : State) (n : Nat) : (s.setJ n).vdone = s.vdone := rfl
@[simp] theorem State.setJ_pass (s : State) (n : Nat) : (s.setJ n).pass = s.pass := rfl
@[simp] theorem State.setJ_errcnt (s : State) (n : Nat) : (s.setJ n).errcnt = s.errcnt := rfl
@[simp] theorem State.setJ_fault (s : State) (n : Nat) : (s.setJ n).fault = s.fault := rfl
@[simp] theorem State.setJ_cause (s : State) (n : Nat) : (s.setJ n).cause = s.cause := rfl
@[simp] theorem State.setJ_inputs (s : State) (n : Nat) : (s.setJ n).inputs = s.inputs := rfl
@[simp] theorem State.setJ_responses (s : State) (n : Nat) : (s.setJ n).responses = s.responses := rfl
@[simp] theorem State.setJ_tableSize (s : State) (n : Nat) : (s.setJ n).tableSize = s.tableSize := rfl
@[simp] theorem State.setJ_nupdate (s : State) (n : Nat) : (s.setJ n).nupdate = s.nupdate := rfl
@[simp] theorem State.setJ_rounds (s : State) (n : Nat) : (s.setJ n).rounds = s.rounds := rfl
@[simp] theorem State.setJ_mask (s : State) (n : Nat) : (s.setJ n).mask = s.mask := rfl
@[simp] theorem State.setJ_index (s : State) (n : Nat) (v' : Word) : (s.setJ n).index v' = s.index v' := rfl
@[simp] theorem State.setJ_readTable (s : State) (n : Nat) (a : Nat) : (s.setJ n).readTable a = s.readTable a := rfl
@[simp] theorem State.setJ_readRan (s : State) (n : Nat) (j' : BitVec 7) : (s.setJ n).readRan j' = s.readRan j' := rfl

/-! ### setVran -/

@[simp] theorem State.setVran_params (s : State) (v : Word) : (s.setVran v).params = s.params := rfl
@[simp] theorem State.setVran_ran (s : State) (v : Word) : (s.setVran v).ran = s.ran := rfl
@[simp] theorem State.setVran_table (s : State) (v : Word) : (s.setVran v).table = s.table := rfl
@[simp] theorem State.setVran_work (s : State) (v : Word) : (s.setVran v).work = { s.work with vran := v } := rfl
@[simp] theorem State.setVran_k (s : State) (v : Word) : (s.setVran v).k = s.k := rfl
@[simp] theorem State.setVran_tvalid (s : State) (v : Word) : (s.setVran v).tvalid = s.tvalid := rfl
@[simp] theorem State.setVran_svalid (s : State) (v : Word) : (s.setVran v).svalid = s.svalid := rfl
@[simp] theorem State.setVran_vdone (s : State) (v : Word) : (s.setVran v).vdone = s.vdone := rfl
@[simp] theorem State.setVran_pass (s : State) (v : Word) : (s.setVran v).pass = s.pass := rfl
@[simp] theorem State.setVran_errcnt (s : State) (v : Word) : (s.setVran v).errcnt = s.errcnt := rfl
@[simp] theorem State.setVran_fault (s : State) (v : Word) : (s.setVran v).fault = s.fault := rfl
@[simp] theorem State.setVran_cause (s : State) (v : Word) : (s.setVran v).cause = s.cause := rfl
@[simp] theorem State.setVran_inputs (s : State) (v : Word) : (s.setVran v).inputs = s.inputs := rfl
@[simp] theorem State.setVran_responses (s : State) (v : Word) : (s.setVran v).responses = s.responses := rfl
@[simp] theorem State.setVran_tableSize (s : State) (v : Word) : (s.setVran v).tableSize = s.tableSize := rfl
@[simp] theorem State.setVran_nupdate (s : State) (v : Word) : (s.setVran v).nupdate = s.nupdate := rfl
@[simp] theorem State.setVran_rounds (s : State) (v : Word) : (s.setVran v).rounds = s.rounds := rfl
@[simp] theorem State.setVran_mask (s : State) (v : Word) : (s.setVran v).mask = s.mask := rfl
@[simp] theorem State.setVran_index (s : State) (v : Word) (v' : Word) : (s.setVran v).index v' = s.index v' := rfl
@[simp] theorem State.setVran_readTable (s : State) (v : Word) (a : Nat) : (s.setVran v).readTable a = s.readTable a := rfl
@[simp] theorem State.setVran_readRan (s : State) (v : Word) (j' : BitVec 7) : (s.setVran v).readRan j' = s.readRan j' := rfl

/-! ### writeRan -/

@[simp] theorem State.writeRan_params (s : State) (j : BitVec 7) (v : Word) : (s.writeRan j v).params = s.params := rfl
@[simp] theorem State.writeRan_ran (s : State) (j : BitVec 7) (v : Word) : (s.writeRan j v).ran = s.ran.set j.toNat v j.isLt := rfl
@[simp] theorem State.writeRan_table (s : State) (j : BitVec 7) (v : Word) : (s.writeRan j v).table = s.table := rfl
@[simp] theorem State.writeRan_work (s : State) (j : BitVec 7) (v : Word) : (s.writeRan j v).work = s.work := rfl
@[simp] theorem State.writeRan_k (s : State) (j : BitVec 7) (v : Word) : (s.writeRan j v).k = s.k := rfl
@[simp] theorem State.writeRan_tvalid (s : State) (j : BitVec 7) (v : Word) : (s.writeRan j v).tvalid = s.tvalid := rfl
@[simp] theorem State.writeRan_svalid (s : State) (j : BitVec 7) (v : Word) : (s.writeRan j v).svalid = s.svalid := rfl
@[simp] theorem State.writeRan_vdone (s : State) (j : BitVec 7) (v : Word) : (s.writeRan j v).vdone = s.vdone := rfl
@[simp] theorem State.writeRan_pass (s : State) (j : BitVec 7) (v : Word) : (s.writeRan j v).pass = s.pass := rfl
@[simp] theorem State.writeRan_errcnt (s : State) (j : BitVec 7) (v : Word) : (s.writeRan j v).errcnt = s.errcnt := rfl
@[simp] theorem State.writeRan_fault (s : State) (j : BitVec 7) (v : Word) : (s.writeRan j v).fault = s.fault := rfl
@[simp] theorem State.writeRan_cause (s : State) (j : BitVec 7) (v : Word) : (s.writeRan j v).cause = s.cause := rfl
@[simp] theorem State.writeRan_inputs (s : State) (j : BitVec 7) (v : Word) : (s.writeRan j v).inputs = s.inputs := rfl
@[simp] theorem State.writeRan_responses (s : State) (j : BitVec 7) (v : Word) : (s.writeRan j v).responses = s.responses := rfl
@[simp] theorem State.writeRan_tableSize (s : State) (j : BitVec 7) (v : Word) : (s.writeRan j v).tableSize = s.tableSize := rfl
@[simp] theorem State.writeRan_nupdate (s : State) (j : BitVec 7) (v : Word) : (s.writeRan j v).nupdate = s.nupdate := rfl
@[simp] theorem State.writeRan_rounds (s : State) (j : BitVec 7) (v : Word) : (s.writeRan j v).rounds = s.rounds := rfl
@[simp] theorem State.writeRan_mask (s : State) (j : BitVec 7) (v : Word) : (s.writeRan j v).mask = s.mask := rfl
@[simp] theorem State.writeRan_index (s : State) (j : BitVec 7) (v : Word) (v' : Word) : (s.writeRan j v).index v' = s.index v' := rfl
@[simp] theorem State.writeRan_readTable (s : State) (j : BitVec 7) (v : Word) (a : Nat) : (s.writeRan j v).readTable a = s.readTable a := rfl

/-! ### xupd -/

@[simp] theorem State.xupd_params (s : State) (v : Word) : (s.xupd v).params = s.params := rfl
@[simp] theorem State.xupd_ran (s : State) (v : Word) : (s.xupd v).ran = s.ran := rfl
@[simp] theorem State.xupd_table (s : State) (v : Word) : (s.xupd v).table = Memory.write s.table (s.index v) (s.readTable (s.index v) ^^^ v) := rfl
@[simp] theorem State.xupd_work (s : State) (v : Word) : (s.xupd v).work = s.work := rfl
@[simp] theorem State.xupd_k (s : State) (v : Word) : (s.xupd v).k = s.k := rfl
@[simp] theorem State.xupd_tvalid (s : State) (v : Word) : (s.xupd v).tvalid = s.tvalid := rfl
@[simp] theorem State.xupd_svalid (s : State) (v : Word) : (s.xupd v).svalid = s.svalid := rfl
@[simp] theorem State.xupd_vdone (s : State) (v : Word) : (s.xupd v).vdone = s.vdone := rfl
@[simp] theorem State.xupd_pass (s : State) (v : Word) : (s.xupd v).pass = s.pass := rfl
@[simp] theorem State.xupd_errcnt (s : State) (v : Word) : (s.xupd v).errcnt = s.errcnt := rfl
@[simp] theorem State.xupd_fault (s : State) (v : Word) : (s.xupd v).fault = s.fault := rfl
@[simp] theorem State.xupd_cause (s : State) (v : Word) : (s.xupd v).cause = s.cause := rfl
@[simp] theorem State.xupd_inputs (s : State) (v : Word) : (s.xupd v).inputs = s.inputs := rfl
@[simp] theorem State.xupd_responses (s : State) (v : Word) : (s.xupd v).responses = s.responses := rfl
@[simp] theorem State.xupd_tableSize (s : State) (v : Word) : (s.xupd v).tableSize = s.tableSize := rfl
@[simp] theorem State.xupd_nupdate (s : State) (v : Word) : (s.xupd v).nupdate = s.nupdate := rfl
@[simp] theorem State.xupd_rounds (s : State) (v : Word) : (s.xupd v).rounds = s.rounds := rfl
@[simp] theorem State.xupd_mask (s : State) (v : Word) : (s.xupd v).mask = s.mask := rfl
@[simp] theorem State.xupd_index (s : State) (v : Word) (v' : Word) : (s.xupd v).index v' = s.index v' := rfl
@[simp] theorem State.xupd_readRan (s : State) (v : Word) (j' : BitVec 7) : (s.xupd v).readRan j' = s.readRan j' := rfl

/-! ### clearResults -/

@[simp] theorem State.clearResults_params (s : State) : (s.clearResults).params = s.params := rfl
@[simp] theorem State.clearResults_ran (s : State) : (s.clearResults).ran = s.ran := rfl
@[simp] theorem State.clearResults_table (s : State) : (s.clearResults).table = s.table := rfl
@[simp] theorem State.clearResults_work (s : State) : (s.clearResults).work = s.work := rfl
@[simp] theorem State.clearResults_k (s : State) : (s.clearResults).k = s.k := rfl
@[simp] theorem State.clearResults_tvalid (s : State) : (s.clearResults).tvalid = s.tvalid := rfl
@[simp] theorem State.clearResults_svalid (s : State) : (s.clearResults).svalid = s.svalid := rfl
@[simp] theorem State.clearResults_vdone (s : State) : (s.clearResults).vdone = false := rfl
@[simp] theorem State.clearResults_pass (s : State) : (s.clearResults).pass = false := rfl
@[simp] theorem State.clearResults_errcnt (s : State) : (s.clearResults).errcnt = 0#64 := rfl
@[simp] theorem State.clearResults_fault (s : State) : (s.clearResults).fault = s.fault := rfl
@[simp] theorem State.clearResults_cause (s : State) : (s.clearResults).cause = s.cause := rfl
@[simp] theorem State.clearResults_inputs (s : State) : (s.clearResults).inputs = s.inputs := rfl
@[simp] theorem State.clearResults_responses (s : State) : (s.clearResults).responses = s.responses := rfl
@[simp] theorem State.clearResults_tableSize (s : State) : (s.clearResults).tableSize = s.tableSize := rfl
@[simp] theorem State.clearResults_nupdate (s : State) : (s.clearResults).nupdate = s.nupdate := rfl
@[simp] theorem State.clearResults_rounds (s : State) : (s.clearResults).rounds = s.rounds := rfl
@[simp] theorem State.clearResults_mask (s : State) : (s.clearResults).mask = s.mask := rfl
@[simp] theorem State.clearResults_index (s : State) (v' : Word) : (s.clearResults).index v' = s.index v' := rfl
@[simp] theorem State.clearResults_readTable (s : State) (a : Nat) : (s.clearResults).readTable a = s.readTable a := rfl
@[simp] theorem State.clearResults_readRan (s : State) (j' : BitVec 7) : (s.clearResults).readRan j' = s.readRan j' := rfl

/-! ### clearFlags -/

@[simp] theorem State.clearFlags_params (s : State) : (s.clearFlags).params = s.params := rfl
@[simp] theorem State.clearFlags_ran (s : State) : (s.clearFlags).ran = s.ran := rfl
@[simp] theorem State.clearFlags_table (s : State) : (s.clearFlags).table = s.table := rfl
@[simp] theorem State.clearFlags_work (s : State) : (s.clearFlags).work = s.work := rfl
@[simp] theorem State.clearFlags_k (s : State) : (s.clearFlags).k = s.k := rfl
@[simp] theorem State.clearFlags_tvalid (s : State) : (s.clearFlags).tvalid = false := rfl
@[simp] theorem State.clearFlags_svalid (s : State) : (s.clearFlags).svalid = false := rfl
@[simp] theorem State.clearFlags_vdone (s : State) : (s.clearFlags).vdone = false := rfl
@[simp] theorem State.clearFlags_pass (s : State) : (s.clearFlags).pass = false := rfl
@[simp] theorem State.clearFlags_errcnt (s : State) : (s.clearFlags).errcnt = 0#64 := rfl
@[simp] theorem State.clearFlags_fault (s : State) : (s.clearFlags).fault = s.fault := rfl
@[simp] theorem State.clearFlags_cause (s : State) : (s.clearFlags).cause = s.cause := rfl
@[simp] theorem State.clearFlags_inputs (s : State) : (s.clearFlags).inputs = s.inputs := rfl
@[simp] theorem State.clearFlags_responses (s : State) : (s.clearFlags).responses = s.responses := rfl
@[simp] theorem State.clearFlags_tableSize (s : State) : (s.clearFlags).tableSize = s.tableSize := rfl
@[simp] theorem State.clearFlags_nupdate (s : State) : (s.clearFlags).nupdate = s.nupdate := rfl
@[simp] theorem State.clearFlags_rounds (s : State) : (s.clearFlags).rounds = s.rounds := rfl
@[simp] theorem State.clearFlags_mask (s : State) : (s.clearFlags).mask = s.mask := rfl
@[simp] theorem State.clearFlags_index (s : State) (v' : Word) : (s.clearFlags).index v' = s.index v' := rfl
@[simp] theorem State.clearFlags_readTable (s : State) (a : Nat) : (s.clearFlags).readTable a = s.readTable a := rfl
@[simp] theorem State.clearFlags_readRan (s : State) (j' : BitVec 7) : (s.clearFlags).readRan j' = s.readRan j' := rfl

/-! ### judge -/

@[simp] theorem State.judge_params (s : State) : (s.judge).params = s.params := rfl
@[simp] theorem State.judge_ran (s : State) : (s.judge).ran = s.ran := rfl
@[simp] theorem State.judge_table (s : State) : (s.judge).table = s.table := rfl
@[simp] theorem State.judge_work (s : State) : (s.judge).work = s.work := rfl
@[simp] theorem State.judge_k (s : State) : (s.judge).k = s.k := rfl
@[simp] theorem State.judge_tvalid (s : State) : (s.judge).tvalid = s.tvalid := rfl
@[simp] theorem State.judge_svalid (s : State) : (s.judge).svalid = s.svalid := rfl
@[simp] theorem State.judge_vdone (s : State) : (s.judge).vdone = true := rfl
@[simp] theorem State.judge_pass (s : State) : (s.judge).pass = s.withinTolerance := rfl
@[simp] theorem State.judge_errcnt (s : State) : (s.judge).errcnt = s.errcnt := rfl
@[simp] theorem State.judge_fault (s : State) : (s.judge).fault = s.fault := rfl
@[simp] theorem State.judge_cause (s : State) : (s.judge).cause = s.cause := rfl
@[simp] theorem State.judge_inputs (s : State) : (s.judge).inputs = s.inputs := rfl
@[simp] theorem State.judge_responses (s : State) : (s.judge).responses = s.responses := rfl
@[simp] theorem State.judge_tableSize (s : State) : (s.judge).tableSize = s.tableSize := rfl
@[simp] theorem State.judge_nupdate (s : State) : (s.judge).nupdate = s.nupdate := rfl
@[simp] theorem State.judge_rounds (s : State) : (s.judge).rounds = s.rounds := rfl
@[simp] theorem State.judge_mask (s : State) : (s.judge).mask = s.mask := rfl
@[simp] theorem State.judge_index (s : State) (v' : Word) : (s.judge).index v' = s.index v' := rfl
@[simp] theorem State.judge_readTable (s : State) (a : Nat) : (s.judge).readTable a = s.readTable a := rfl
@[simp] theorem State.judge_readRan (s : State) (j' : BitVec 7) : (s.judge).readRan j' = s.readRan j' := rfl

/-! ### hardReset -/

@[simp] theorem State.hardReset_params (s : State) : (s.hardReset).params = s.params := rfl
@[simp] theorem State.hardReset_ran (s : State) : (s.hardReset).ran = Vector.replicate 128 0#64 := rfl
@[simp] theorem State.hardReset_table (s : State) : (s.hardReset).table = [] := rfl
@[simp] theorem State.hardReset_work (s : State) : (s.hardReset).work = Work.reset := rfl
@[simp] theorem State.hardReset_k (s : State) : (s.hardReset).k = BitVec.ofNat 6 s.params.kReset := rfl
@[simp] theorem State.hardReset_tvalid (s : State) : (s.hardReset).tvalid = false := rfl
@[simp] theorem State.hardReset_svalid (s : State) : (s.hardReset).svalid = false := rfl
@[simp] theorem State.hardReset_vdone (s : State) : (s.hardReset).vdone = false := rfl
@[simp] theorem State.hardReset_pass (s : State) : (s.hardReset).pass = false := rfl
@[simp] theorem State.hardReset_errcnt (s : State) : (s.hardReset).errcnt = 0#64 := rfl
@[simp] theorem State.hardReset_fault (s : State) : (s.hardReset).fault = false := rfl
@[simp] theorem State.hardReset_cause (s : State) : (s.hardReset).cause = 0#4 := rfl
@[simp] theorem State.hardReset_inputs (s : State) : (s.hardReset).inputs = s.inputs := rfl
@[simp] theorem State.hardReset_responses (s : State) : (s.hardReset).responses = s.responses := rfl

end Sys2Proof.Machine
end

