-- ==== Sys2Proof/Laws/Loops.lean ====
section
/-! SUPPORT. Counted loops: the induction over `iter`, packaged once. -/

namespace Sys2Proof.Machine

variable {σ : Type}

@[simp] theorem iter_zero (f : Nat → σ → σ) (s : σ) : iter 0 f s = s := rfl

theorem iter_succ (n : Nat) (f : Nat → σ → σ) (s : σ) : iter (n + 1) f s = f n (iter n f s) := rfl

/-- An invariant that may depend on the number of passes made. -/
theorem iter_rec (P : Nat → σ → Prop) {n : Nat} {f : Nat → σ → σ} {s : σ} (h0 : P 0 s)
    (hs : ∀ i t, i < n → P i t → P (i + 1) (f i t)) : P n (iter n f s) := by
  induction n with
  | zero => exact h0
  | succ n ih => exact hs n _ n.lt_succ_self (ih fun i t hi => hs i t (Nat.lt_succ_of_lt hi))

/-- A loop that keeps a property keeps it whole. -/
theorem iter_keeps (P : σ → Prop) {n : Nat} {f : Nat → σ → σ} {s : σ} (h0 : P s) (hs : ∀ i t, P t → P (f i t)) :
    P (iter n f s) := iter_rec (fun _ => P) h0 fun i t _ => hs i t

/-- Two loops run side by side. -/
theorem iter_rel {τ : Type} (R : σ → τ → Prop) {n : Nat} {f : Nat → σ → σ} {g : Nat → τ → τ} {s : σ} {t : τ}
    (h0 : R s t) (hs : ∀ i a b, R a b → R (f i a) (g i b)) : R (iter n f s) (iter n g t) := by
  induction n with
  | zero => exact h0
  | succ n ih => exact hs n _ _ ih

/-- What a loop body leaves alone, the loop leaves alone. -/
theorem iter_frame {α : Type} (g : σ → α) {n : Nat} {f : Nat → σ → σ} {s : σ} (h : ∀ i t, g (f i t) = g t) :
    g (iter n f s) = g s := iter_keeps (fun t => g t = g s) rfl fun i t ht => (h i t).trans ht

/-- A property the body of a loop over `I` keeps, and the counter does not touch, holds at its end. -/
theorem forI_keeps (P : State → Prop) (hI : ∀ t n, P t → P (t.setI n)) {s : State} {n : Nat}
    {body : Nat → State → State} (h0 : P s) (h : ∀ i t, P t → P (body i t)) : P (s.forI n body) := by
  unfold State.forI
  exact iter_keeps P (hI s 0 h0) fun i t ht => hI _ _ (h i t ht)

/-- A property the body of a loop over the streams keeps, and the counter does not touch, holds at its end. -/
theorem forJ_keeps (P : State → Prop) (hJ : ∀ t n, P t → P (t.setJ n)) {s : State}
    {body : BitVec 7 → State → State} (h0 : P s) (h : ∀ j t, P t → P (body j t)) : P (s.forJ body) := by
  unfold State.forJ
  exact iter_keeps P (hJ s 0 h0) fun i t ht => hJ _ _ (h _ t ht)

end Sys2Proof.Machine
end

