-- ==== Sys2Proof/Laws/Transition.lean ====
section
/-! SUPPORT. The transition rule is linear and injective (rule R91), and the terms of the sequence. -/

namespace Sys2Proof.Machine

theorem getLsbD_POLY (i : Nat) : POLY.getLsbD i = decide (i < 3) := by
  rcases Nat.lt_or_ge i 64 with h | h
  · interval_cases i <;> rfl
  · simp [BitVec.getLsbD_of_ge _ _ h]; omega

theorem xor_left_comm (a b c : Word) : a ^^^ (b ^^^ c) = b ^^^ (a ^^^ c) := by ac_rfl

/-- `T` respects XOR (rule R91). -/
theorem T_xor (a b : Word) : T (a ^^^ b) = T a ^^^ T b := by
  unfold T
  rw [BitVec.shiftLeft_xor_distrib, BitVec.getLsbD_xor]
  generalize a <<< 1 = x; generalize b <<< 1 = y; generalize POLY = p
  cases a.getLsbD 63 <;> cases b.getLsbD 63 <;>
    simp [BitVec.xor_assoc, BitVec.xor_comm, xor_left_comm]

@[simp] theorem T_zero : T 0#64 = 0#64 := by decide

/-- The bit dropped off the top is bit 0 of the result (rule R91). -/
theorem T_bit_zero (v : Word) : (T v).getLsbD 0 = v.getLsbD 63 := by
  unfold T
  cases h : v.getLsbD 63 <;> simp [getLsbD_POLY]

theorem T_eq_zero {v : Word} (h : T v = 0#64) : v = 0#64 := by
  have h63 : v.getLsbD 63 = false := by rw [← T_bit_zero, h]; rfl
  refine BitVec.eq_of_getLsbD_eq fun i hi => ?_
  rcases Nat.lt_or_ge i 63 with h' | h'
  · have := congrArg (fun x => x.getLsbD (i + 1)) h
    simp only [T, h63, BitVec.getLsbD_xor, BitVec.getLsbD_shiftLeft, Bool.false_eq_true, if_false, BitVec.getLsbD_zero] at this
    simpa [show i + 1 < 64 by omega] using this
  · obtain rfl : i = 63 := by omega
    simpa using h63

/-- Distinct states have distinct successors (rule R91). -/
theorem T_injective : Function.Injective T := fun a b h => by
  have h' : T (a ^^^ b) = 0#64 := by rw [T_xor, h, BitVec.xor_self]
  exact BitVec.xor_eq_zero_iff.1 (T_eq_zero h')

theorem T_iterate_xor (n : Nat) (a b : Word) : T^[n] (a ^^^ b) = T^[n] a ^^^ T^[n] b := by
  induction n generalizing a b with
  | zero => rfl
  | succ n ih => rw [Function.iterate_succ_apply, T_xor, ih]; rfl

@[simp] theorem term_zero : term 0 = 1#64 := rfl

theorem term_succ (n : Nat) : term (n + 1) = T (term n) := Function.iterate_succ_apply' T n _

theorem term_add (m n : Nat) : term (m + n) = T^[m] (term n) := Function.iterate_add_apply T m n _

/-- No term of the sequence is zero (rule R35). -/
theorem term_ne_zero (n : Nat) : term n ≠ 0#64 := by
  induction n with
  | zero => decide
  | succ n ih => rw [term_succ]; exact fun h => ih (T_eq_zero h)

end Sys2Proof.Machine
end

