-- ==== Sys2Proof/Laws/Norm.lean ====
section
/-! SUPPORT. NORM: no pass overflows, and the bounded loops reach the closed form (rule R100). -/

namespace Sys2Proof.Machine

theorem periodWord_toInt : periodWord.toInt = (PERIOD : Int) := by decide

theorem PERIOD_eq : (PERIOD : Int) = 1317624576693539401 := rfl

/-- One addition of NORM on integers. -/
def upInt (x : Int) : Int := if x < 0 then x + (PERIOD : Int) else x

/-- One subtraction of NORM on integers. -/
def downInt (x : Int) : Int := if (PERIOD : Int) < x then x - (PERIOD : Int) else x

/-- No addition overflows (rule R100). -/
theorem Work.normUp_toInt (w : Work) : w.normUp.jn.toInt = upInt w.jn.toInt := by
  have h1 := BitVec.le_toInt w.jn
  unfold Work.normUp upInt
  by_cases h : w.jn.toInt < 0
  · rw [if_pos (BitVec.slt_iff_toInt_lt.2 h), if_pos h]
    change (w.jn + periodWord).toInt = _
    rw [BitVec.toInt_add, periodWord_toInt, PERIOD_eq, Int.bmod_eq_of_le] <;> omega
  · rw [if_neg (fun h' => h (BitVec.slt_iff_toInt_lt.1 h')), if_neg h]

/-- No subtraction overflows (rule R100). -/
theorem Work.normDown_toInt (w : Work) : w.normDown.jn.toInt = downInt w.jn.toInt := by
  have h1 := BitVec.toInt_lt (x := w.jn)
  unfold Work.normDown downInt
  by_cases h : (PERIOD : Int) < w.jn.toInt
  · rw [if_pos (BitVec.slt_iff_toInt_lt.2 (by rwa [periodWord_toInt])), if_pos h]
    change (w.jn - periodWord).toInt = _
    rw [PERIOD_eq] at h
    rw [BitVec.toInt_sub, periodWord_toInt, PERIOD_eq, Int.bmod_eq_of_le] <;> omega
  · rw [if_neg (fun h' => h (by rw [← periodWord_toInt]; exact BitVec.slt_iff_toInt_lt.1 h')), if_neg h]

/-- So many additions, on a negative value, either stay negative or reach the residue. -/
theorem iter_upInt {x : Int} (hx : x < 0) (n : Nat) :
    iter n (fun _ => upInt) x = if x + n * (PERIOD : Int) < 0 then x + n * (PERIOD : Int) else x % (PERIOD : Int) := by
  rw [PERIOD_eq]
  induction n with
  | zero => simp [hx]
  | succ n ih =>
    rw [iter_succ, ih, upInt, PERIOD_eq]
    push_cast
    split_ifs <;> omega

/-- So many subtractions, on a value above the period, either stay above it or reach the last residue. -/
theorem iter_downInt {x : Int} (hx : (PERIOD : Int) < x) (n : Nat) :
    iter n (fun _ => downInt) x =
      if (PERIOD : Int) < x - n * (PERIOD : Int) then x - n * (PERIOD : Int) else (x - 1) % (PERIOD : Int) + 1 := by
  rw [PERIOD_eq] at *
  induction n with
  | zero => simp [hx]
  | succ n ih =>
    rw [iter_succ, ih, downInt, PERIOD_eq]
    push_cast
    split_ifs <;> omega

theorem iter_fix {σ : Type} {f : σ → σ} {x : σ} (h : f x = x) (n : Nat) : iter n (fun _ => f) x = x :=
  iter_keeps (fun y => y = x) rfl fun _ _ ht => by rw [ht, h]

/-- NORM (rule R100): the bounded loops reach the closed form. -/
theorem Work.norm_toInt (w : Work) (n : Word) : (w.norm n).jn.toInt = normInt n.toInt := by
  have h1 := BitVec.le_toInt n
  have h2 := BitVec.toInt_lt (x := n)
  have hup : ∀ (m : Nat) (u : Work), (iter m (fun _ => Work.normUp) u).jn.toInt = iter m (fun _ => upInt) u.jn.toInt :=
    fun m u => iter_rel (fun (w : Work) x => w.jn.toInt = x) rfl fun _ a b h => by rw [Work.normUp_toInt, h]
  have hdown : ∀ (m : Nat) (u : Work), (iter m (fun _ => Work.normDown) u).jn.toInt = iter m (fun _ => downInt) u.jn.toInt :=
    fun m u => iter_rel (fun (w : Work) x => w.jn.toInt = x) rfl fun _ a b h => by rw [Work.normDown_toInt, h]
  unfold Work.norm
  rw [hdown, hup]
  change iter 6 _ (iter 8 _ n.toInt) = _
  generalize n.toInt = x at *
  unfold normInt
  rcases lt_or_ge x 0 with hneg | hpos
  · rw [iter_upInt hneg, if_pos hneg, if_neg (by rw [PERIOD_eq]; omega), iter_fix]
    rw [downInt, PERIOD_eq, if_neg (by omega)]
  · rw [iter_fix (f := upInt) (by rw [upInt, if_neg (by omega)]), if_neg (by omega)]
    split
    · exact iter_fix (by rw [downInt, if_neg (by omega)]) _
    · rw [iter_downInt (by omega), if_neg (by rw [PERIOD_eq]; omega)]

theorem normInt_range (n : Int) : 0 ≤ normInt n ∧ normInt n ≤ (PERIOD : Int) := by
  unfold normInt
  rw [PERIOD_eq]
  split
  · omega
  · split <;> omega

/-- NORM leaves a value below 2^61 (rule R100), so its two's-complement and unsigned readings agree. -/
theorem Work.norm_toNat (w : Work) (n : Word) : (w.norm n).jn.toNat = (normInt n.toInt).toNat := by
  have h := Work.norm_toInt w n
  obtain ⟨h0, -⟩ := normInt_range n.toInt
  rw [← h, BitVec.toInt_eq_toNat_cond] at h0
  rw [← h, BitVec.toInt_eq_toNat_cond]
  have hlt := (w.norm n).jn.isLt
  generalize (w.norm n).jn.toNat = v at *
  split at h0 <;> simp_all; omega

/-- NORM leaves `VRAN` and the loop counters alone. -/
theorem Work.norm_frame (w : Work) (n : Word) :
    (w.norm n).vran = w.vran ∧ (w.norm n).i = w.i ∧ (w.norm n).j = w.j := by
  have hd : ∀ u : Work, u.normDown.vran = u.vran ∧ u.normDown.i = u.i ∧ u.normDown.j = u.j := fun u => by
    unfold Work.normDown; split <;> exact ⟨rfl, rfl, rfl⟩
  have hu : ∀ u : Work, u.normUp.vran = u.vran ∧ u.normUp.i = u.i ∧ u.normUp.j = u.j := fun u => by
    unfold Work.normUp; split <;> exact ⟨rfl, rfl, rfl⟩
  unfold Work.norm
  refine iter_keeps (fun t : Work => t.vran = w.vran ∧ t.i = w.i ∧ t.j = w.j) ?_ fun _ t ht =>
    ⟨(hd t).1.trans ht.1, (hd t).2.1.trans ht.2.1, (hd t).2.2.trans ht.2.2⟩
  exact iter_keeps (fun t : Work => t.vran = w.vran ∧ t.i = w.i ∧ t.j = w.j) ⟨rfl, rfl, rfl⟩ fun _ t ht =>
    ⟨(hu t).1.trans ht.1, (hu t).2.1.trans ht.2.1, (hu t).2.2.trans ht.2.2⟩

end Sys2Proof.Machine
end

