-- ==== Sys2Proof/Laws/Squaring.lean ====
section
/-! SUPPORT. What BUILD, SQR, MSB and LOOP compute (rules R102 to R105, R108). -/

namespace Sys2Proof.Machine

/-! ### Linear maps agree when they agree on the powers of `x` -/

/-- The word made of the low `n` bits of `v`, one at a time. -/
def lowBits (v : Word) : Nat → Word
  | 0 => 0#64
  | n + 1 => lowBits v n ^^^ (if v.getLsbD n then BitVec.twoPow 64 n else 0#64)

theorem getLsbD_lowBits (v : Word) (n i : Nat) : (lowBits v n).getLsbD i = (decide (i < n) && v.getLsbD i) := by
  induction n with
  | zero => simp [lowBits]
  | succ n ih =>
    rw [lowBits, BitVec.getLsbD_xor, ih]
    rcases Nat.lt_or_ge i 64 with h64 | h64
    · rcases Nat.lt_trichotomy i n with h | rfl | h
      · have : i ≠ n := Nat.ne_of_lt h
        cases v.getLsbD n <;> simp [BitVec.getLsbD_twoPow, h, Nat.lt_succ_of_lt h, this.symm]
      · cases hv : v.getLsbD i <;> simp [h64]
      · have h1 : ¬ i < n := by omega
        have h2 : ¬ i < n + 1 := by omega
        have h3 : n ≠ i := by omega
        cases v.getLsbD n <;> simp [BitVec.getLsbD_twoPow, h1, h2, h3]
    · simp [BitVec.getLsbD_of_ge _ _ h64]

theorem lowBits_all (v : Word) : lowBits v 64 = v :=
  BitVec.eq_of_getLsbD_eq fun i hi => by rw [getLsbD_lowBits, decide_eq_true hi, Bool.true_and]

/-- Two maps that respect XOR and agree on the 64 powers of two agree everywhere. -/
theorem linear_ext {f g : Word → Word} (hf : ∀ a b, f (a ^^^ b) = f a ^^^ f b) (hg : ∀ a b, g (a ^^^ b) = g a ^^^ g b)
    (h : ∀ i < 64, f (BitVec.twoPow 64 i) = g (BitVec.twoPow 64 i)) (v : Word) : f v = g v := by
  have f0 : f 0#64 = 0#64 := by simpa using hf 0#64 0#64
  have g0 : g 0#64 = 0#64 := by simpa using hg 0#64 0#64
  have key : ∀ n ≤ 64, f (lowBits v n) = g (lowBits v n) := by
    intro n
    induction n with
    | zero => intro _; rw [lowBits, f0, g0]
    | succ n ih =>
      intro hn
      rw [lowBits, hf, hg, ih (by omega)]
      split
      · rw [h n (by omega)]
      · rw [f0, g0]
  simpa [lowBits_all] using key 64 le_rfl

/-! ### SQR -/

/-- The XOR of the rows `T^(2i)(1)`, `i < n`, selected by the bits of `v`. -/
def sqrSum : Nat → Word → Word
  | 0, _ => 0#64
  | n + 1, v => sqrSum n v ^^^ (if v.getLsbD n then term (2 * n) else 0#64)

theorem sqrSum_xor (n : Nat) (a b : Word) : sqrSum n (a ^^^ b) = sqrSum n a ^^^ sqrSum n b := by
  induction n with
  | zero => simp [sqrSum]
  | succ n ih =>
    simp only [sqrSum, ih, BitVec.getLsbD_xor]
    generalize sqrSum n a = x; generalize sqrSum n b = y; generalize term (2 * n) = t
    cases a.getLsbD n <;> cases b.getLsbD n <;>
      simp [BitVec.xor_assoc, BitVec.xor_comm, xor_left_comm]

/-- Squaring one transition later is two transitions later. -/
theorem sqrSum_T (v : Word) : sqrSum 64 (T v) = T (T (sqrSum 64 v)) := by
  refine linear_ext (f := fun v => sqrSum 64 (T v)) (g := fun v => T (T (sqrSum 64 v))) (fun a b => ?_) (fun a b => ?_)
    (by decide +kernel) v
  · simp only [T_xor, sqrSum_xor]
  · simp only [T_xor, sqrSum_xor]

/-- SQR is squaring: it doubles the exponent (rule R103). -/
theorem sqrSum_term (m : Nat) : sqrSum 64 (term m) = term (2 * m) := by
  induction m with
  | zero => decide +kernel
  | succ m ih => rw [term_succ, sqrSum_T, ih, ← term_succ, ← term_succ]; rfl

/-! ### BUILD -/

theorem Work.readM2_writeM2 (w : Work) (i j : BitVec 6) (v : Word) :
    (w.writeM2 i v).readM2 j = if j = i then v else w.readM2 j := by
  unfold Work.readM2 Work.writeM2
  simp only [Vector.getElem_set]
  by_cases h : j = i
  · simp [h]
  · have : ¬ i.toNat = j.toNat := fun he => h (BitVec.eq_of_toNat_eq he.symm)
    simp [h, this]

/-- The rows of the squaring matrix are in place. -/
def Work.Built (w : Work) : Prop := ∀ i, i < 64 → w.readM2 (BitVec.ofNat 6 i) = term (2 * i)

theorem ofNat6_inj {i j : Nat} (hi : i < 64) (hj : j < 64) (h : BitVec.ofNat 6 i = BitVec.ofNat 6 j) : i = j := by
  have := congrArg BitVec.toNat h
  simp only [BitVec.toNat_ofNat] at this
  omega

/-- BUILD (rule R102): its rows, and the one past the last left in `JTEMP`. -/
theorem Work.build_spec (w : Work) : w.build.Built ∧ w.build.jtemp = term 128 := by
  have key : ∀ n, n ≤ 64 → (∀ i, i < n → (iter n Work.buildRow { w with jtemp := 1#64 }).readM2 (BitVec.ofNat 6 i) = term (2 * i)) ∧
      (iter n Work.buildRow { w with jtemp := 1#64 }).jtemp = term (2 * n) := by
    intro n
    induction n with
    | zero => exact fun _ => ⟨fun i hi => absurd hi (by omega), rfl⟩
    | succ n ih =>
      intro hn
      obtain ⟨hr, ht⟩ := ih (by omega)
      rw [iter_succ]
      refine ⟨fun i hi => ?_, ?_⟩
      · change (Work.writeM2 _ _ _).readM2 _ = _
        rw [Work.readM2_writeM2]
        split
        · rename_i he
          rw [ofNat6_inj (by omega) (by omega) he, ht]
        · rename_i he
          exact hr i (by rcases Nat.lt_succ_iff_lt_or_eq.1 hi with h | rfl <;> [exact h; exact absurd rfl he])
      · change T (T _) = _
        rw [ht, ← term_succ, ← term_succ]
        rfl
  exact key 64 le_rfl

@[simp] theorem Work.build_jn (w : Work) : w.build.jn = w.jn := iter_frame Work.jn fun _ _ => rfl
@[simp] theorem Work.build_vran (w : Work) : w.build.vran = w.vran := iter_frame Work.vran fun _ _ => rfl
@[simp] theorem Work.build_i (w : Work) : w.build.i = w.i := iter_frame Work.i fun _ _ => rfl
@[simp] theorem Work.build_j (w : Work) : w.build.j = w.j := iter_frame Work.j fun _ _ => rfl

/-! ### SQR on the working set -/

/-- SQR writes `JTEMP` and nothing else. -/
theorem Work.sqr_frame (w : Work) (v : Word) : w.sqr v = { w with jtemp := (w.sqr v).jtemp } := by
  have : (fun t : Work => { t with jtemp := 0#64 }) (w.sqr v) = { w with jtemp := 0#64 } :=
    iter_frame (fun t : Work => { t with jtemp := 0#64 }) fun i t => by unfold Work.sqrTerm; split <;> rfl
  have h2 := congrArg (fun t : Work => { t with jtemp := (w.sqr v).jtemp }) this
  exact h2

theorem Work.sqr_jtemp {w : Work} (h : w.Built) (v : Word) : (w.sqr v).jtemp = sqrSum 64 v := by
  have key : ∀ n, n ≤ 64 → (iter n (Work.sqrTerm v) { w with jtemp := 0#64 }).m2 = w.m2 ∧
      (iter n (Work.sqrTerm v) { w with jtemp := 0#64 }).jtemp = sqrSum n v := by
    intro n
    induction n with
    | zero => exact fun _ => ⟨rfl, rfl⟩
    | succ n ih =>
      intro hn
      obtain ⟨hm, hj⟩ := ih (by omega)
      rw [iter_succ, sqrSum]
      generalize iter n (Work.sqrTerm v) { w with jtemp := 0#64 } = u at hm hj
      have hr : u.readM2 (BitVec.ofNat 6 n) = term (2 * n) := by
        rw [← h n (by omega)]; unfold Work.readM2; simp only [hm]
      unfold Work.sqrTerm
      split
      · exact ⟨hm, congrArg₂ (· ^^^ ·) hj hr⟩
      · exact ⟨hm, by simpa using hj⟩
  exact (key 64 le_rfl).2

/-! ### MSB -/

theorem topBit_le (v : Word) (n : Nat) : topBit v n ≤ n := by
  induction n with
  | zero => exact le_rfl
  | succ n ih => unfold topBit; split <;> omega

theorem div_two_pow_lt_two {v n : Nat} (h : v < 2 ^ (n + 1 + 1)) : v / 2 ^ (n + 1) < 2 :=
  Nat.div_lt_of_lt_mul (by rwa [← pow_succ])

/-- The top bit found is the most-significant set bit (rule R104). -/
theorem topBit_spec {v : Word} {n : Nat} (hv : v ≠ 0#64) (hn : v.toNat < 2 ^ (n + 1)) : v.toNat >>> topBit v n = 1 := by
  induction n with
  | zero =>
    have : v.toNat ≠ 0 := fun h => hv (BitVec.eq_of_toNat_eq h)
    simp only [topBit, Nat.shiftRight_zero]; omega
  | succ n ih =>
    have hlt := div_two_pow_lt_two hn
    have hbit : v.getLsbD (n + 1) = decide (v.toNat / 2 ^ (n + 1) % 2 = 1) := Nat.testBit_eq_decide_div_mod_eq
    unfold topBit
    rw [hbit]
    split
    · rename_i h
      rw [Nat.shiftRight_eq_div_pow]
      generalize v.toNat / 2 ^ (n + 1) = q at *
      simp only [decide_eq_true_eq] at h
      omega
    · rename_i h
      refine ih ?_
      have h0 : v.toNat / 2 ^ (n + 1) = 0 := by
        generalize v.toNat / 2 ^ (n + 1) = q at *
        simp only [decide_eq_true_eq] at h
        omega
      exact (Nat.div_eq_zero_iff.1 h0).resolve_left (by positivity)

@[simp] theorem Work.msb_jn (w : Work) : w.msb.jn = w.jn := rfl
@[simp] theorem Work.msb_vran (w : Work) : w.msb.vran = w.vran := rfl
@[simp] theorem Work.msb_i (w : Work) : w.msb.i = w.i := rfl
@[simp] theorem Work.msb_j (w : Work) : w.msb.j = w.j := rfl

theorem Work.Built.msb {w : Work} (h : w.Built) : w.msb.Built := h

theorem Work.msb_ji (w : Work) : w.msb.ji.toNat = topBit w.jn 63 := by
  have := topBit_le w.jn 63
  rw [Work.msb, BitVec.toNat_ofNat]
  omega

/-! ### LOOP -/

theorem shiftRight_pred {n t : Nat} (ht : 0 < t) :
    n >>> (t - 1) = 2 * (n >>> t) + (if n.testBit (t - 1) then 1 else 0) := by
  obtain ⟨k, rfl⟩ : ∃ k, t = k + 1 := ⟨t - 1, by omega⟩
  simp only [Nat.add_sub_cancel, Nat.shiftRight_succ]
  have : n.testBit k = decide (n >>> k % 2 = 1) := by rw [Nat.shiftRight_eq_div_pow]; exact Nat.testBit_eq_decide_div_mod_eq
  rw [this]
  generalize n >>> k = q
  split <;> rename_i h <;> simp only [decide_eq_true_eq] at h <;> omega

theorem Work.loopPass_frame (w : Work) :
    w.loopPass.m2 = w.m2 ∧ w.loopPass.jn = w.jn ∧ w.loopPass.vran = w.vran ∧ w.loopPass.i = w.i ∧ w.loopPass.j = w.j := by
  have h := Work.sqr_frame w w.jran
  have hs : (w.sqr w.jran).m2 = w.m2 ∧ (w.sqr w.jran).jn = w.jn ∧ (w.sqr w.jran).vran = w.vran ∧
      (w.sqr w.jran).i = w.i ∧ (w.sqr w.jran).j = w.j := by
    rw [h]; exact ⟨rfl, rfl, rfl, rfl, rfl⟩
  unfold Work.loopPass
  dsimp only
  split <;> exact hs

/-- The invariant of LOOP (rule R108): after `p` passes `JRAN` is the term numbered by the bits of `JN` down to `JI`. -/
theorem Work.loop_spec {w : Work} (h : w.Built) (hj : w.jn.toNat >>> w.ji.toNat = 1) :
    w.loop.jran = term w.jn.toNat := by
  have key : ∀ p, p ≤ w.ji.toNat →
      (iter p (fun _ => Work.loopPass) { w with jran := 2#64 }).m2 = w.m2 ∧
      (iter p (fun _ => Work.loopPass) { w with jran := 2#64 }).jn = w.jn ∧
      (iter p (fun _ => Work.loopPass) { w with jran := 2#64 }).ji.toNat = w.ji.toNat - p ∧
      (iter p (fun _ => Work.loopPass) { w with jran := 2#64 }).jran = term (w.jn.toNat >>> (w.ji.toNat - p)) := by
    intro p
    induction p with
    | zero =>
      intro _
      refine ⟨rfl, rfl, rfl, ?_⟩
      change (2#64 : Word) = _
      rw [Nat.sub_zero, hj]; rfl
    | succ p ih =>
      intro hp
      obtain ⟨hm, hn, hi, hr⟩ := ih (by omega)
      rw [iter_succ]
      generalize iter p (fun _ => Work.loopPass) { w with jran := 2#64 } = u at hm hn hi hr
      obtain ⟨hf1, hf2, -⟩ := Work.loopPass_frame u
      have hb : u.Built := fun i hi => by rw [← h i hi]; unfold Work.readM2; simp only [hm]
      have hsq := Work.sqr_jtemp hb u.jran
      have hfr := Work.sqr_frame u u.jran
      have hji : (u.ji - 1#6).toNat = w.ji.toNat - (p + 1) := by
        rw [BitVec.toNat_sub]
        have := u.ji.isLt
        simp only [BitVec.toNat_ofNat]
        omega
      have hstep := shiftRight_pred (n := w.jn.toNat) (t := w.ji.toNat - p) (by omega)
      have hsub : w.ji.toNat - p - 1 = w.ji.toNat - (p + 1) := by omega
      rw [hsub] at hstep
      refine ⟨hf1.trans hm, hf2.trans hn, ?_, ?_⟩
      · unfold Work.loopPass
        dsimp only
        split <;> exact hji
      · have hbit : (u.sqr u.jran).jn.getLsbD (u.ji - 1#6).toNat = w.jn.toNat.testBit (w.ji.toNat - (p + 1)) := by
          rw [hfr]; change u.jn.getLsbD _ = _
          rw [hn, hji]; rfl
        unfold Work.loopPass
        dsimp only
        rw [hbit, hstep]
        split
        · change T (u.sqr u.jran).jtemp = _
          rw [hsq, hr, sqrSum_term, ← term_succ]
        · change (u.sqr u.jran).jtemp = _
          rw [hsq, hr, sqrSum_term]; rfl
  have := (key _ le_rfl).2.2.2
  simpa [Work.loop] using this

end Sys2Proof.Machine
end

