-- ==== Sys2Proof/Laws/JumpAhead.lean ====
section
/-! SUPPORT. A jump-ahead meets its contract (rules R106, R108), whatever the working set held before. -/

namespace Sys2Proof.Machine

/-- What a jump-ahead answers, whatever the working set held before: the contract (rules R106, R108, R227). -/
theorem Work.jumpAhead_value (w : Work) (n : Word) : (w.jumpAhead n).2 = term (normInt n.toInt).toNat := by
  have hn := Work.norm_toNat w n
  unfold Work.jumpAhead
  dsimp only
  split
  · rename_i h
    have : (normInt n.toInt).toNat = 0 := by rw [← hn, h]; rfl
    rw [this]; rfl
  · rename_i h
    have hb := (Work.build_spec (w.norm n)).1.msb
    have htop : (w.norm n).build.msb.jn.toNat >>> (w.norm n).build.msb.ji.toNat = 1 := by
      rw [Work.msb_ji, Work.msb_jn, Work.build_jn]
      exact topBit_spec h (BitVec.isLt _)
    rw [Work.loop_spec hb htop, Work.msb_jn, Work.build_jn, hn]

/-- A jump-ahead leaves `VRAN` and the loop counters alone. -/
theorem Work.jumpAhead_frame (w : Work) (n : Word) :
    (w.jumpAhead n).1.vran = w.vran ∧ (w.jumpAhead n).1.i = w.i ∧ (w.jumpAhead n).1.j = w.j := by
  obtain ⟨hv, hi, hj⟩ := Work.norm_frame w n
  have hloop : ∀ u : Work, u.loop.vran = u.vran ∧ u.loop.i = u.i ∧ u.loop.j = u.j := fun u =>
    iter_keeps (fun t : Work => t.vran = u.vran ∧ t.i = u.i ∧ t.j = u.j) ⟨rfl, rfl, rfl⟩ fun _ t ht => by
      obtain ⟨-, -, h1, h2, h3⟩ := Work.loopPass_frame t
      exact ⟨h1.trans ht.1, h2.trans ht.2.1, h3.trans ht.2.2⟩
  unfold Work.jumpAhead
  dsimp only
  split
  · exact ⟨hv, hi, hj⟩
  · obtain ⟨h1, h2, h3⟩ := hloop (w.norm n).build.msb
    rw [h1, h2, h3, Work.msb_vran, Work.msb_i, Work.msb_j, Work.build_vran, Work.build_i, Work.build_j]
    exact ⟨hv, hi, hj⟩

end Sys2Proof.Machine
end

