-- ==== Sys2Proof/Laws/Memory.lean ====
section
/-! SUPPORT. The table: read after write, and the canonical form kept by every operation. -/

namespace Sys2Proof.Machine

/-- Every listed index is above `i`. -/
abbrev Memory.Above (i : Nat) (m : Memory) : Prop := ∀ c ∈ m, i < c.1

theorem Memory.wf_nil : Memory.wf [] := ⟨List.Pairwise.nil, by simp⟩

/-- The table right after reset is in canonical form. -/
theorem State.resetWith_wf (p : Params) : Memory.wf (State.resetWith p).table := Memory.wf_nil

theorem Memory.wf_cons {c : Nat × Word} {m : Memory} :
    Memory.wf (c :: m) ↔ Memory.Above c.1 m ∧ c.2 ≠ Memory.initial c.1 ∧ Memory.wf m := by
  simp only [Memory.wf, List.pairwise_cons, List.forall_mem_cons]
  tauto

@[simp] theorem Memory.read_nil (i : Nat) : Memory.read [] i = Memory.initial i := rfl

theorem Memory.read_cons (c : Nat × Word) (m : Memory) (i : Nat) :
    Memory.read (c :: m) i = if c.1 = i then c.2 else Memory.read m i := rfl

theorem Memory.read_above {i : Nat} {m : Memory} (h : ∀ c ∈ m, c.1 ≠ i) : Memory.read m i = Memory.initial i := by
  induction m with
  | nil => rfl
  | cons c m ih =>
    rw [Memory.read_cons, if_neg (h c List.mem_cons_self), ih fun d hd => h d (List.mem_cons_of_mem _ hd)]

theorem Memory.read_smart_cons (c : Nat × Word) {m : Memory} (h : ∀ d ∈ m, d.1 ≠ c.1) (i : Nat) :
    Memory.read (Memory.cons c m) i = if c.1 = i then c.2 else Memory.read m i := by
  unfold Memory.cons
  split
  · rename_i hc
    split
    · subst i; rw [Memory.read_above h, hc]
    · rfl
  · rfl

theorem Memory.mem_smart_cons {c d : Nat × Word} {m : Memory} (h : d ∈ Memory.cons c m) : d = c ∨ d ∈ m := by
  unfold Memory.cons at h
  split at h
  · exact Or.inr h
  · simpa using h

theorem Memory.wf_smart_cons {c : Nat × Word} {m : Memory} (ha : Memory.Above c.1 m) (hm : Memory.wf m) :
    Memory.wf (Memory.cons c m) := by
  unfold Memory.cons
  split
  · exact hm
  · exact Memory.wf_cons.2 ⟨ha, ‹_›, hm⟩

/-- Every index listed after a write was listed before or is the one written. -/
theorem Memory.mem_write {m : Memory} {i : Nat} {v : Word} {c : Nat × Word} (h : c ∈ Memory.write m i v) :
    c.1 = i ∨ c ∈ m := by
  induction m with
  | nil => exact (Memory.mem_smart_cons h).imp (fun h => congrArg Prod.fst h) id
  | cons d m ih =>
    unfold Memory.write at h
    split at h
    · exact (Memory.mem_smart_cons h).imp (fun h => congrArg Prod.fst h) id
    · split at h
      · exact (Memory.mem_smart_cons h).imp (fun h => congrArg Prod.fst h) (List.mem_cons_of_mem _)
      · rcases List.mem_cons.1 h with rfl | h
        · exact Or.inr List.mem_cons_self
        · exact (ih h).imp id (List.mem_cons_of_mem _)

/-- A write keeps the canonical form. -/
theorem Memory.wf_write {m : Memory} (h : Memory.wf m) (i : Nat) (v : Word) : Memory.wf (Memory.write m i v) := by
  induction m with
  | nil => exact Memory.wf_smart_cons (by simp) h
  | cons d m ih =>
    obtain ⟨ha, hne, hm⟩ := Memory.wf_cons.1 h
    unfold Memory.write
    split
    · rename_i hlt
      refine Memory.wf_smart_cons (fun c hc => ?_) h
      rcases List.mem_cons.1 hc with rfl | hc
      · exact hlt
      · exact hlt.trans (ha c hc)
    · split
      · rename_i he
        exact Memory.wf_smart_cons (by simpa [← he] using ha) hm
      · refine Memory.wf_cons.2 ⟨fun c hc => ?_, hne, ih hm⟩
        rcases Memory.mem_write hc with hc | hc
        · omega
        · exact ha c hc

/-- Read after write, in one equation. -/
theorem Memory.read_write {m : Memory} (h : Memory.wf m) (i : Nat) (v : Word) (a : Nat) :
    Memory.read (Memory.write m i v) a = if a = i then v else Memory.read m a := by
  induction m with
  | nil => simp [Memory.write, Memory.read_smart_cons, eq_comm]
  | cons d m ih =>
    obtain ⟨ha, -, hm⟩ := Memory.wf_cons.1 h
    unfold Memory.write
    split
    · rename_i hlt
      rw [Memory.read_smart_cons _ (by
        intro c hc
        rcases List.mem_cons.1 hc with rfl | hc
        · exact Nat.ne_of_gt hlt
        · exact Nat.ne_of_gt (hlt.trans (ha c hc)))]
      simp [eq_comm]
    · split
      · rename_i he
        rw [Memory.read_smart_cons _ fun c hc => by have := ha c hc; simp only; omega, Memory.read_cons]
        split <;> split <;> simp_all
      · rw [Memory.read_cons, Memory.read_cons, ih hm]
        split <;> split <;> simp_all

/-- `TINIT`'s words keep the canonical form. -/
theorem Memory.wf_init {m : Memory} (h : Memory.wf m) (n : Nat) : Memory.wf (Memory.init n m) :=
  ⟨h.1.filter _, fun c hc => h.2 c (List.mem_of_mem_filter hc)⟩

theorem Memory.mem_init {m : Memory} {n : Nat} {c : Nat × Word} (h : c ∈ Memory.init n m) : c ∈ m :=
  List.mem_of_mem_filter h

/-- What the table reads as after `TINIT` (rule R121). -/
theorem Memory.read_init (m : Memory) (n a : Nat) :
    Memory.read (Memory.init n m) a = if a < n then Memory.initial a else Memory.read m a := by
  induction m with
  | nil => simp [Memory.init]
  | cons c m ih =>
    rw [Memory.read_cons]
    by_cases hc : n ≤ c.1
    · have : Memory.init n (c :: m) = c :: Memory.init n m := by simp [Memory.init, hc]
      rw [this, Memory.read_cons, ih]
      split <;> split <;> first | rfl | omega
    · have : Memory.init n (c :: m) = Memory.init n m := by simp [Memory.init, hc]
      rw [this, ih]
      by_cases ha : a < n
      · simp [ha]
      · rw [if_neg ha, if_neg ha, if_neg (by omega)]

/-- Tables in canonical form that read the same are the same. -/
theorem Memory.ext {m n : Memory} (hm : Memory.wf m) (hn : Memory.wf n)
    (h : ∀ a, Memory.read m a = Memory.read n a) : m = n := by
  induction m generalizing n with
  | nil =>
    cases n with
    | nil => rfl
    | cons d n =>
      have hd := h d.1
      rw [Memory.read_cons, if_pos rfl] at hd
      exact absurd hd.symm (Memory.wf_cons.1 hn).2.1
  | cons c m ih =>
    obtain ⟨hca, hcv, hcw⟩ := Memory.wf_cons.1 hm
    have hc := h c.1
    rw [Memory.read_cons, if_pos rfl] at hc
    cases n with
    | nil => exact absurd hc hcv
    | cons d n =>
      obtain ⟨hda, hdv, hdw⟩ := Memory.wf_cons.1 hn
      have hd := h d.1
      rw [Memory.read_cons, Memory.read_cons, if_pos (rfl : d.1 = d.1)] at hd
      rw [Memory.read_cons] at hc
      have hcd : c.1 = d.1 := by
        rcases Nat.lt_trichotomy c.1 d.1 with hlt | he | hlt
        · rw [if_neg (Nat.ne_of_gt hlt), Memory.read_above fun x hx => Nat.ne_of_gt (hlt.trans (hda x hx))] at hc
          exact absurd hc hcv
        · exact he
        · rw [if_neg (Nat.ne_of_gt hlt), Memory.read_above fun x hx => Nat.ne_of_gt (hlt.trans (hca x hx))] at hd
          exact absurd hd.symm hdv
      rw [if_pos hcd.symm] at hc
      have hcd' : c = d := Prod.ext hcd hc
      subst hcd'
      refine congrArg (c :: ·) (ih hcw hdw fun a => ?_)
      have ha := h a
      rw [Memory.read_cons, Memory.read_cons] at ha
      by_cases hac : c.1 = a
      · subst hac
        rw [Memory.read_above fun x hx => Nat.ne_of_gt (hca x hx), Memory.read_above fun x hx => Nat.ne_of_gt (hda x hx)]
      · simpa [hac] using ha

/-- The canonical form is that of the block's table after an update (rule R122). -/
theorem State.xupd_wf {s : State} (h : Memory.wf s.table) (v : Word) : Memory.wf (s.xupd v).table :=
  Memory.wf_write h _ _

/-- What an update does to each word (rule R122). -/
theorem State.readTable_xupd {s : State} (h : Memory.wf s.table) (v : Word) (a : Nat) :
    (s.xupd v).readTable a = if a = s.index v then s.readTable a ^^^ v else s.readTable a := by
  rw [State.readTable, State.xupd_table, Memory.read_write h]
  split
  · subst a; rfl
  · rfl

end Sys2Proof.Machine
end

