-- ==== Sys2Proof/Laws/Commands.lean ====
section
/-! SUPPORT. What the shared operations of the commands can do, said once each. -/

namespace Sys2Proof.Machine

/-! ### The checks -/

/-- A command answers in the faulted state with a refusal, and otherwise by its body (rules R78, R201). -/
theorem State.command_eq (s : State) (body : State → State) :
    s.command body = .next (if s.fault then s.refuseFaulted else body s) := rfl

theorem State.command_ok {s : State} (h : s.fault = false) (body : State → State) : s.command body = .next (body s) := by
  rw [State.command_eq, h]; rfl

theorem State.command_faulted {s : State} (h : s.fault = true) (body : State → State) :
    s.command body = .next s.refuseFaulted := by
  rw [State.command_eq, h]; rfl

theorem State.needTable_ok {s : State} (h : s.tvalid = true) (body : State → State) : s.needTable body = body s := by
  rw [State.needTable, h]; rfl

theorem State.needTable_raise {s : State} (h : s.tvalid = false) (body : State → State) :
    s.needTable body = s.raise .tableNotInit := by
  rw [State.needTable, h]; rfl

theorem State.needStreams_ok {s : State} (h : s.svalid = true) (body : State → State) : s.needStreams body = body s := by
  rw [State.needStreams, h]; rfl

theorem State.needStreams_raise {s : State} (h : s.svalid = false) (body : State → State) :
    s.needStreams body = s.raise .streamsNotInit := by
  rw [State.needStreams, h]; rfl

/-! ### What an operation may write -/

/-- `u` is `s` but for the stream registers, the table and the working set. -/
abbrev State.SameButStorage (s u : State) : Prop := u = { s with ran := u.ran, table := u.table, work := u.work }

/-! ### Stream registers -/

/-- Read after write of a stream register (rule R228). -/
theorem State.readRan_writeRan (s : State) (j k : BitVec 7) (v : Word) :
    (s.writeRan j v).readRan k = if k = j then v else s.readRan k := by
  unfold State.readRan
  simp only [State.writeRan_ran, Vector.getElem_set]
  by_cases h : k = j
  · simp [h]
  · have : ¬ j.toNat = k.toNat := fun he => h (BitVec.eq_of_toNat_eq he.symm)
    simp [h, this]

/-- Two stream files that read the same are the same. -/
theorem ran_ext {s t : State} (h : ∀ j, s.readRan j = t.readRan j) : s.ran = t.ran := by
  refine Vector.ext fun i hi => ?_
  have := h (BitVec.ofNatLT i hi)
  simpa [State.readRan] using this

/-! ### Seeding -/

/-- What the seeding loop leaves in each stream register (rules R106, R126), whatever was there before. -/
theorem State.readRan_seedLoop (s : State) (k : BitVec 7) :
    (s.forJ State.seedStream).readRan k = term (normInt (s.seedOffset k).toInt).toNat := by
  have key : ∀ n, n ≤ 128 → ∀ k : BitVec 7, k.toNat < n →
      (iter n (fun j t => (State.seedStream (BitVec.ofNat 7 j) t).setJ (j + 1)) (s.setJ 0)).readRan k =
        term (normInt (s.seedOffset k).toInt).toNat := by
    intro n
    induction n with
    | zero => exact fun _ k hk => absurd hk (by omega)
    | succ n ih =>
      intro hn k hk
      have hkey : (iter n (fun j t => (State.seedStream (BitVec.ofNat 7 j) t).setJ (j + 1)) (s.setJ 0)).k = s.k :=
        iter_frame State.k fun i t => rfl
      rw [iter_succ]
      generalize iter n (fun j t => (State.seedStream (BitVec.ofNat 7 j) t).setJ (j + 1)) (s.setJ 0) = u at hkey ih
      rw [State.setJ_readRan, State.seedStream, State.readRan_writeRan]
      split
      · rename_i he
        rw [Work.jumpAhead_value, he]
        simp only [State.seedOffset, State.rounds, State.nupdate, State.tableSize, hkey]
      · rename_i he
        have hne : k.toNat ≠ n := fun h => he (BitVec.eq_of_toNat_eq (by rw [h, BitVec.toNat_ofNat]; omega))
        rw [← ih (by omega) k (by omega)]
        generalize (u.work.jumpAhead _).1 = w
        rfl
  unfold State.forJ
  exact key 128 le_rfl k k.isLt

/-- Seeding writes the stream registers, `SVALID` and the working set, and nothing else (rule R126); of the working
set it leaves `VRAN` and `I` alone. -/
theorem State.seedAll_frame (s : State) :
    s.seedAll = { s with ran := s.seedAll.ran, work := s.seedAll.work, svalid := true } ∧
      s.seedAll.work.vran = s.work.vran ∧ s.seedAll.work.i = s.work.i := by
  have h : (fun u : State => u = { s with ran := u.ran, work := u.work } ∧ u.work.vran = s.work.vran ∧ u.work.i = s.work.i)
      (s.forJ State.seedStream) := by
    refine forJ_keeps (fun u : State => u = { s with ran := u.ran, work := u.work } ∧ u.work.vran = s.work.vran ∧
      u.work.i = s.work.i) (fun t n ht => ?_) ⟨rfl, rfl, rfl⟩ fun j t ht => ?_
    · obtain ⟨h1, h2, h3⟩ := ht
      exact ⟨by rw [h1]; rfl, h2, h3⟩
    · obtain ⟨h1, h2, h3⟩ := ht
      obtain ⟨f1, f2, -⟩ := Work.jumpAhead_frame t.work (t.seedOffset j)
      unfold State.seedStream
      generalize t.work.jumpAhead (t.seedOffset j) = p at f1 f2
      exact ⟨by rw [h1]; rfl, f1.trans h2, f2.trans h3⟩
  unfold State.seedAll
  generalize s.forJ State.seedStream = u at h
  exact ⟨by rw [h.1], h.2⟩

@[simp] theorem State.readRan_seedAll (s : State) (k : BitVec 7) :
    s.seedAll.readRan k = term (normInt (s.seedOffset k).toInt).toNat := by
  rw [← State.readRan_seedLoop s k, State.seedAll]
  generalize s.forJ State.seedStream = u
  rfl

/-! ### Updates -/

theorem State.readRan_updStream (j k : BitVec 7) (s : State) :
    (State.updStream j s).readRan k = if k = j then T (s.readRan j) else s.readRan k := by
  rw [State.updStream, State.xupd_readRan, State.readRan_writeRan]

theorem State.readTable_updStream {s : State} (h : Memory.wf s.table) (j : BitVec 7) (a : Nat) :
    (State.updStream j s).readTable a =
      if a = s.index (T (s.readRan j)) then s.readTable a ^^^ T (s.readRan j) else s.readTable a := by
  rw [State.updStream, State.readTable_xupd (by simpa using h)]
  rfl

theorem State.SameButStorage.updStream {s u : State} (h : s.SameButStorage u) (j : BitVec 7) :
    s.SameButStorage (State.updStream j u) := by
  unfold State.SameButStorage at h ⊢
  rw [h]; rfl

/-- The update phase writes the stream registers, the table and the loop counters, and nothing else (rule R128). -/
theorem State.updateRounds_frame (s : State) : s.SameButStorage s.updateRounds := by
  unfold State.updateRounds
  refine forI_keeps (s.SameButStorage ·) (fun t n ht => ?_) rfl fun i t ht =>
    forJ_keeps (s.SameButStorage ·) (fun t n ht => ?_) ht fun j t ht => ht.updStream j
  all_goals
    unfold State.SameButStorage at ht ⊢
    rw [ht]; rfl

/-- The update phase keeps the canonical form. -/
theorem State.updateRounds_wf {s : State} (h : Memory.wf s.table) : Memory.wf s.updateRounds.table := by
  unfold State.updateRounds
  exact forI_keeps (fun t => Memory.wf t.table) (fun _ _ ht => ht) h fun _ t ht =>
    forJ_keeps (fun t => Memory.wf t.table) (fun _ _ ht => ht) ht fun _ _ hu => State.xupd_wf (by simpa using hu) _

/-! ### Verification -/

/-- The replay writes the table and the working set, and nothing else (rule R151). -/
theorem State.replay_frame (s : State) : s.replay = { s with table := s.replay.table, work := s.replay.work } := by
  unfold State.replay
  refine forI_keeps (fun u : State => u = { s with table := u.table, work := u.work }) (fun t n ht => ?_) rfl
    fun i t ht => ?_
  · rw [ht]; rfl
  · rw [ht]; rfl

/-- The replay keeps the canonical form. -/
theorem State.replay_wf {s : State} (h : Memory.wf s.table) : Memory.wf s.replay.table := by
  unfold State.replay
  exact forI_keeps (fun t => Memory.wf t.table) (fun _ _ ht => ht) h fun _ _ ht => State.xupd_wf (by simpa using ht) _

/-- COUNT writes `ERRCNT` and the counter `I`, and nothing else (rule R152). -/
theorem State.countErrors_frame (s : State) :
    s.countErrors = { s with errcnt := s.countErrors.errcnt, work := s.countErrors.work } := by
  unfold State.countErrors
  refine forI_keeps (fun u : State => u = { s with errcnt := u.errcnt, work := u.work }) (fun t n ht => ?_) rfl
    fun i t ht => ?_
  · rw [ht]; rfl
  · unfold State.countWord
    split
    · rw [ht]
    · exact ht

end Sys2Proof.Machine
end

