-- ==== Sys2Proof/Laws/Encoding.lean ====
section
/-! SUPPORT. The two fields of a command word, read back. -/

namespace Sys2Proof

/-- The bits of `CW = {op, arg}` (rule R72). -/
theorem getLsbD_word (o : BitVec 4) (a : Word) (k : Nat) :
    BitVec.getLsbD (w := 68) (o ++ a) k = if k < 64 then a.getLsbD k else o.getLsbD (k - 64) := BitVec.getLsbD_append

@[simp] theorem opField_append (o : BitVec 4) (a : Word) : opField (o ++ a) = o := by
  refine BitVec.eq_of_getLsbD_eq fun i hi => ?_
  rw [opField, BitVec.getLsbD_extractLsb', getLsbD_word, if_neg (by omega), decide_eq_true hi, Bool.true_and,
    Nat.add_sub_cancel_left]

@[simp] theorem argField_append (o : BitVec 4) (a : Word) : argField (o ++ a) = a := by
  refine BitVec.eq_of_getLsbD_eq fun i hi => ?_
  rw [argField, BitVec.getLsbD_extractLsb', getLsbD_word, if_pos (by omega), decide_eq_true hi, Bool.true_and,
    Nat.zero_add]

@[simp] theorem opField_encode (i : Instr) : opField (encode i) = i.opcode := opField_append _ _

@[simp] theorem argField_encode (i : Instr) : argField (encode i) = i.arg := argField_append _ _

/-- A command word is its two fields. -/
theorem append_fields (w : BitVec 68) : (opField w ++ argField w : BitVec 68) = w := by
  refine BitVec.eq_of_getLsbD_eq fun i hi => ?_
  rw [getLsbD_word]
  split
  · rename_i h
    rw [argField, BitVec.getLsbD_extractLsb', decide_eq_true h, Bool.true_and, Nat.zero_add]
  · rw [opField, BitVec.getLsbD_extractLsb', decide_eq_true (show i - 64 < 4 by omega), Bool.true_and]
    congr 1
    omega

/-- A number below `2^n` has no bit at or above `n`, so it meets no mask of such bits. -/
theorem and_high_eq_zero {n k : Nat} (hk : k < 2 ^ n) (m : Word) (hm : ∀ i, i < n → m.getLsbD i = false) :
    BitVec.ofNat 64 k &&& m = 0#64 := by
  refine BitVec.eq_of_getLsbD_eq fun i hi => ?_
  rw [BitVec.getLsbD_and, BitVec.getLsbD_zero]
  by_cases h : i < n
  · rw [hm i h, Bool.and_false]
  · have : k.testBit i = false := Nat.testBit_lt_two_pow (hk.trans_le (Nat.pow_le_pow_right (by omega) (by omega)))
    simp [BitVec.getLsbD_ofNat, this]

end Sys2Proof
end

