-- ==== Sys2Proof/Laws/Exec.lean ====
section
/-! SUPPORT. What each command answers when it passes its checks, over the shared operations; and that every command
and every step answers a next state (rule R71). -/

namespace Sys2Proof.Machine

variable {s : State}

theorem exec_nop (h : s.fault = false) : exec .nop s = .next (s.respond 0#64) := by
  rw [exec, execNop, State.command_ok h]

theorem exec_cfg (h : s.fault = false) {k : Nat} (hk : K_MIN ≤ k) (hm : k ≤ s.params.kMax) :
    exec (.cfg k) s = .next ({ s with k := BitVec.ofNat 6 k }.clearFlags.respond 0#64) := by
  rw [exec, execCfg, State.command_ok h, if_neg (by omega)]

theorem exec_cfg_raise (h : s.fault = false) {k : Nat} (hk : k < K_MIN ∨ s.params.kMax < k) :
    exec (.cfg k) s = .next (s.raise .allocFail) := by
  rw [exec, execCfg, State.command_ok h, if_pos hk]

theorem exec_rds (h : s.fault = false) {c : Nat} {v : Word} (hc : s.readCsr c = some v) :
    exec (.rds c) s = .next (s.respond v) := by
  rw [exec, execRds, State.command_ok h, hc]

theorem exec_rds_raise (h : s.fault = false) {c : Nat} (hc : s.readCsr c = none) :
    exec (.rds c) s = .next (s.raise .badCsr) := by
  rw [exec, execRds, State.command_ok h, hc]

theorem exec_starts (h : s.fault = false) (n : Word) :
    exec (.starts n) s = .next ({ s with work := (s.work.jumpAhead n).1 }.respond (s.work.jumpAhead n).2) := by
  rw [exec, execStarts, State.command_ok h]

theorem exec_step (h : s.fault = false) (hs : s.svalid = true) (j : BitVec 7) :
    exec (.step j) s = .next ((s.writeRan j (T (s.readRan j))).respond (T (s.readRan j))) := by
  rw [exec, execStep, State.command_ok h, State.needStreams_ok hs]

theorem exec_tinit (h : s.fault = false) :
    exec .tinit s = .next (({ s with table := Memory.init s.tableSize s.table, tvalid := true }.setI
      s.tableSize).clearResults.respond 0#64) := by
  rw [exec, execTinit, State.command_ok h]

theorem exec_txor (h : s.fault = false) (ht : s.tvalid = true) (v : Word) :
    exec (.txor v) s = .next ((s.xupd v).clearResults.respond 0#64) := by
  rw [exec, execTxor, State.command_ok h, State.needTable_ok ht]

theorem exec_trd (h : s.fault = false) (ht : s.tvalid = true) {i : Nat} (hi : i < s.tableSize) :
    exec (.trd i) s = .next (s.respond (s.readTable i)) := by
  rw [exec, execTrd, State.command_ok h, State.needTable_ok ht, if_neg (by omega)]

theorem exec_trd_raise (h : s.fault = false) (ht : s.tvalid = true) {i : Nat} (hi : s.tableSize ≤ i) :
    exec (.trd i) s = .next (s.raise .indexRange) := by
  rw [exec, execTrd, State.command_ok h, State.needTable_ok ht, if_pos hi]

theorem exec_seed (h : s.fault = false) : exec .seed s = .next (s.seedAll.respond 0#64) := by
  rw [exec, execSeed, State.command_ok h]

theorem exec_upd (h : s.fault = false) (ht : s.tvalid = true) (hs : s.svalid = true) (j : BitVec 7) :
    exec (.upd j) s = .next ((State.updStream j s).clearResults.respond (T (s.readRan j))) := by
  rw [exec, execUpd, State.command_ok h, State.needTable_ok ht, State.needStreams_ok hs]

theorem exec_run (h : s.fault = false) (ht : s.tvalid = true) :
    exec .run s = .next (s.seedAll.updateRounds.clearResults.respond 0#64) := by
  rw [exec, execRun, State.command_ok h, State.needTable_ok ht]

theorem exec_rdr (h : s.fault = false) (hs : s.svalid = true) (j : BitVec 7) :
    exec (.rdr j) s = .next (s.respond (s.readRan j)) := by
  rw [exec, execRdr, State.command_ok h, State.needStreams_ok hs]

theorem exec_verify (h : s.fault = false) (ht : s.tvalid = true) :
    exec .verify s = .next (s.replay.countErrors.judge.respond s.replay.countErrors.errcnt) := by
  rw [exec, execVerify, State.command_ok h, State.needTable_ok ht]

/-- The commands that read the table, refused while it is not valid (rule R198). -/
theorem exec_tableNotInit (h : s.fault = false) (ht : s.tvalid = false) {i : Instr}
    (hi : (∃ v, i = .txor v) ∨ (∃ a, i = .trd a) ∨ (∃ j, i = .upd j) ∨ i = .run ∨ i = .verify) :
    exec i s = .next (s.raise .tableNotInit) := by
  rcases hi with ⟨v, rfl⟩ | ⟨v, rfl⟩ | ⟨v, rfl⟩ | rfl | rfl
  · rw [exec, execTxor, State.command_ok h, State.needTable_raise ht]
  · rw [exec, execTrd, State.command_ok h, State.needTable_raise ht]
  · rw [exec, execUpd, State.command_ok h, State.needTable_raise ht]
  · rw [exec, execRun, State.command_ok h, State.needTable_raise ht]
  · rw [exec, execVerify, State.command_ok h, State.needTable_raise ht]

/-- The commands that read only the streams, refused while those are not valid (rule R197). -/
theorem exec_streamsNotInit (h : s.fault = false) (hs : s.svalid = false) {i : Instr}
    (hi : (∃ j, i = .step j) ∨ ∃ j, i = .rdr j) : exec i s = .next (s.raise .streamsNotInit) := by
  rcases hi with ⟨j, rfl⟩ | ⟨j, rfl⟩
  · rw [exec, execStep, State.command_ok h, State.needStreams_raise hs]
  · rw [exec, execRdr, State.command_ok h, State.needStreams_raise hs]

/-- `UPD`, which reads both, refused for the streams once the table is valid (rule R199). -/
theorem exec_upd_raise (h : s.fault = false) (ht : s.tvalid = true) (hs : s.svalid = false) (j : BitVec 7) :
    exec (.upd j) s = .next (s.raise .streamsNotInit) := by
  rw [exec, execUpd, State.command_ok h, State.needTable_ok ht, State.needStreams_raise hs]

/-- Every command is refused in the faulted state (rule R201). -/
theorem exec_faulted (h : s.fault = true) (i : Instr) : exec i s = .next s.refuseFaulted := by
  cases i
  · rw [exec, execNop, State.command_faulted h]
  · rw [exec, execCfg, State.command_faulted h]
  · rw [exec, execRds, State.command_faulted h]
  · rw [exec, execStarts, State.command_faulted h]
  · rw [exec, execStep, State.command_faulted h]
  · rw [exec, execTinit, State.command_faulted h]
  · rw [exec, execTxor, State.command_faulted h]
  · rw [exec, execTrd, State.command_faulted h]
  · rw [exec, execSeed, State.command_faulted h]
  · rw [exec, execUpd, State.command_faulted h]
  · rw [exec, execRun, State.command_faulted h]
  · rw [exec, execRdr, State.command_faulted h]
  · rw [exec, execVerify, State.command_faulted h]

/-- Every command answers a next state. -/
theorem exec_next (i : Instr) (s : State) : ∃ t, exec i s = .next t := by
  cases i <;> exact ⟨_, rfl⟩

/-- What a command that is not refused as faulted can do: one case for each way it can end (rule R78). -/
theorem exec_cases (h : s.fault = false) {i : Instr} {t : State} (ht : exec i s = .next t) :
    (∃ x, t = s.raise x) ∨
    (i = .nop ∧ t = s.respond 0#64) ∨
    (∃ k, i = .cfg k ∧ K_MIN ≤ k ∧ k ≤ s.params.kMax ∧ t = { s with k := BitVec.ofNat 6 k }.clearFlags.respond 0#64) ∨
    (∃ c v, i = .rds c ∧ s.readCsr c = some v ∧ t = s.respond v) ∨
    (∃ n, i = .starts n ∧ t = { s with work := (s.work.jumpAhead n).1 }.respond (s.work.jumpAhead n).2) ∨
    (∃ j, i = .step j ∧ s.svalid = true ∧ t = (s.writeRan j (T (s.readRan j))).respond (T (s.readRan j))) ∨
    (i = .tinit ∧ t = ({ s with table := Memory.init s.tableSize s.table, tvalid := true }.setI
      s.tableSize).clearResults.respond 0#64) ∨
    (∃ v, i = .txor v ∧ s.tvalid = true ∧ t = (s.xupd v).clearResults.respond 0#64) ∨
    (∃ a, i = .trd a ∧ s.tvalid = true ∧ a < s.tableSize ∧ t = s.respond (s.readTable a)) ∨
    (i = .seed ∧ t = s.seedAll.respond 0#64) ∨
    (∃ j, i = .upd j ∧ s.tvalid = true ∧ s.svalid = true ∧
      t = (State.updStream j s).clearResults.respond (T (s.readRan j))) ∨
    (i = .run ∧ s.tvalid = true ∧ t = s.seedAll.updateRounds.clearResults.respond 0#64) ∨
    (∃ j, i = .rdr j ∧ s.svalid = true ∧ t = s.respond (s.readRan j)) ∨
    (i = .verify ∧ s.tvalid = true ∧ t = s.replay.countErrors.judge.respond s.replay.countErrors.errcnt) := by
  have inj : ∀ {u : State}, exec i s = .next u → t = u := fun hu => by
    rw [hu] at ht; exact (Host.Outcome.next.inj ht).symm
  cases i with
  | nop => exact .inr (.inl ⟨rfl, inj (exec_nop h)⟩)
  | cfg k =>
    by_cases hk : k < K_MIN ∨ s.params.kMax < k
    · exact .inl ⟨_, inj (exec_cfg_raise h hk)⟩
    · exact .inr (.inr (.inl ⟨k, rfl, by omega, by omega, inj (exec_cfg h (by omega) (by omega))⟩))
  | rds c =>
    cases hc : s.readCsr c with
    | none => exact .inl ⟨_, inj (exec_rds_raise h hc)⟩
    | some v => exact .inr (.inr (.inr (.inl ⟨c, v, rfl, hc, inj (exec_rds h hc)⟩)))
  | starts n => exact .inr (.inr (.inr (.inr (.inl ⟨n, rfl, inj (exec_starts h n)⟩))))
  | step j =>
    cases hs : s.svalid
    · exact .inl ⟨_, inj (exec_streamsNotInit h hs (.inl ⟨j, rfl⟩))⟩
    · exact .inr (.inr (.inr (.inr (.inr (.inl ⟨j, rfl, rfl, inj (exec_step h hs j)⟩)))))
  | tinit => exact .inr (.inr (.inr (.inr (.inr (.inr (.inl ⟨rfl, inj (exec_tinit h)⟩))))))
  | txor v =>
    cases hv : s.tvalid
    · exact .inl ⟨_, inj (exec_tableNotInit h hv (.inl ⟨v, rfl⟩))⟩
    · exact .inr (.inr (.inr (.inr (.inr (.inr (.inr (.inl ⟨v, rfl, rfl, inj (exec_txor h hv v)⟩)))))))
  | trd a =>
    cases hv : s.tvalid
    · exact .inl ⟨_, inj (exec_tableNotInit h hv (.inr (.inl ⟨a, rfl⟩)))⟩
    · by_cases ha : s.tableSize ≤ a
      · exact .inl ⟨_, inj (exec_trd_raise h hv ha)⟩
      · exact .inr (.inr (.inr (.inr (.inr (.inr (.inr (.inr (.inl
          ⟨a, rfl, rfl, by omega, inj (exec_trd h hv (by omega))⟩))))))))
  | seed => exact .inr (.inr (.inr (.inr (.inr (.inr (.inr (.inr (.inr (.inl ⟨rfl, inj (exec_seed h)⟩)))))))))
  | upd j =>
    cases hv : s.tvalid
    · exact .inl ⟨_, inj (exec_tableNotInit h hv (.inr (.inr (.inl ⟨j, rfl⟩))))⟩
    · cases hs : s.svalid
      · exact .inl ⟨_, inj (exec_upd_raise h hv hs j)⟩
      · exact .inr (.inr (.inr (.inr (.inr (.inr (.inr (.inr (.inr (.inr (.inl
          ⟨j, rfl, rfl, rfl, inj (exec_upd h hv hs j)⟩))))))))))
  | run =>
    cases hv : s.tvalid
    · exact .inl ⟨_, inj (exec_tableNotInit h hv (.inr (.inr (.inr (.inl rfl)))))⟩
    · exact .inr (.inr (.inr (.inr (.inr (.inr (.inr (.inr (.inr (.inr (.inr (.inl
        ⟨rfl, rfl, inj (exec_run h hv)⟩)))))))))))
  | rdr j =>
    cases hs : s.svalid
    · exact .inl ⟨_, inj (exec_streamsNotInit h hs (.inr ⟨j, rfl⟩))⟩
    · exact .inr (.inr (.inr (.inr (.inr (.inr (.inr (.inr (.inr (.inr (.inr (.inr (.inl
        ⟨j, rfl, rfl, inj (exec_rdr h hs j)⟩))))))))))))
  | verify =>
    cases hv : s.tvalid
    · exact .inl ⟨_, inj (exec_tableNotInit h hv (.inr (.inr (.inr (.inr rfl)))))⟩
    · exact .inr (.inr (.inr (.inr (.inr (.inr (.inr (.inr (.inr (.inr (.inr (.inr (.inr
        ⟨rfl, rfl, inj (exec_verify h hv)⟩))))))))))))

/-! ### Steps -/

/-- What a step can do: wait, carry out a command, raise a decode fault or refuse a malformed word, or reset. -/
theorem step_cases {t : State} (ht : step s = .next t) :
    (s.inputs = [] ∧ t = s) ∨
    (∃ w rest i, s.inputs = .command w :: rest ∧ decode w = .command i ∧ exec i { s with inputs := rest } = .next t) ∨
    (∃ w rest e, s.inputs = .command w :: rest ∧ decode w = .error e ∧
      t = if s.fault then { s with inputs := rest }.refuseFaulted else { s with inputs := rest }.raise (decodeCause e)) ∨
    (∃ x rest, s.inputs = x :: rest ∧ (∀ w, x ≠ .command w) ∧ t = { s with inputs := rest }.hardReset) := by
  unfold step serve at ht
  split at ht
  · exact .inl ⟨‹_›, (Host.Outcome.next.inj ht).symm⟩
  · rename_i x rest hx
    cases x with
    | command w =>
      simp only [acceptInput, acceptWord] at ht
      split at ht
      · exact .inr (.inl ⟨w, rest, _, hx, ‹_›, ht⟩)
      · exact .inr (.inr (.inl ⟨w, rest, _, hx, ‹_›, (Host.Outcome.next.inj ht).symm⟩))
    | reset => exact .inr (.inr (.inr ⟨_, rest, hx, by simp, (Host.Outcome.next.inj ht).symm⟩))
    | resetDuring w => exact .inr (.inr (.inr ⟨_, rest, hx, by simp, (Host.Outcome.next.inj ht).symm⟩))

/-! ### Commands in a row -/

theorem execAll_cons {i : Instr} {s t : State} (h : exec i s = .next t) (is : List Instr) :
    execAll (i :: is) s = execAll is t := by
  rw [execAll, h]

/-- A list of commands completes (rule R71). -/
theorem execAll_next (is : List Instr) (s : State) : ∃ t, execAll is s = .next t := by
  induction is generalizing s with
  | nil => exact ⟨s, rfl⟩
  | cons i is ih =>
    obtain ⟨t, ht⟩ := exec_next i s
    rw [execAll_cons ht]
    exact ih t

theorem execAll_append {as : List Instr} {s t : State} (h : execAll as s = .next t) (bs : List Instr) :
    execAll (as ++ bs) s = execAll bs t := by
  induction as generalizing s with
  | nil => rw [(Host.Outcome.next.inj h : s = t)]; rfl
  | cons i is ih =>
    obtain ⟨u, hu⟩ := exec_next i s
    rw [execAll_cons hu] at h
    rw [List.cons_append, execAll_cons hu, ih h]

end Sys2Proof.Machine
end

