-- ==== Sys2Proof/Laws/PerInstr.lean ====
section
/-! SUPPORT. One lemma per command: its encoding is a word the opcode table calls legal (rule R86). -/

namespace Sys2Proof.Laws.LegalWord

/-- The encoding of a well-formed command has the command's opcode and no reserved bit set (rules R73, R77, R86). -/
def Statement (i : Instr) : Prop :=
  i.wellFormed = true → opField (encode i) = i.opcode ∧ argField (encode i) &&& i.format.reserved = 0#64

theorem statement_of_arg {i : Instr} (h : i.wellFormed = true → i.arg &&& i.format.reserved = 0#64) : Statement i :=
  fun hw => ⟨opField_encode i, by rw [argField_encode]; exact h hw⟩

theorem seven_bits (j : BitVec 7) : j.setWidth 64 &&& Format.J.reserved = 0#64 := by
  rw [← BitVec.ofNat_toNat]
  exact and_high_eq_zero (n := 7) j.isLt _ (by decide)

theorem nop : Statement .nop := statement_of_arg fun _ => rfl
theorem cfg (k : Nat) : Statement (.cfg k) :=
  statement_of_arg fun h => and_high_eq_zero (n := 6) (of_decide_eq_true h) Format.K.reserved (by decide)
theorem rds (c : Nat) : Statement (.rds c) :=
  statement_of_arg fun h => and_high_eq_zero (n := 4) (of_decide_eq_true h) Format.S.reserved (by decide)
theorem starts (n : Word) : Statement (.starts n) := statement_of_arg fun _ => BitVec.and_zero
theorem step (j : BitVec 7) : Statement (.step j) := statement_of_arg fun _ => seven_bits j
theorem tinit : Statement .tinit := statement_of_arg fun _ => rfl
theorem txor (v : Word) : Statement (.txor v) := statement_of_arg fun _ => BitVec.and_zero
theorem trd (i : Nat) : Statement (.trd i) :=
  statement_of_arg fun h => and_high_eq_zero (n := 60) (of_decide_eq_true h) Format.I.reserved (by decide)
theorem seed : Statement .seed := statement_of_arg fun _ => rfl
theorem upd (j : BitVec 7) : Statement (.upd j) := statement_of_arg fun _ => seven_bits j
theorem run : Statement .run := statement_of_arg fun _ => rfl
theorem rdr (j : BitVec 7) : Statement (.rdr j) := statement_of_arg fun _ => seven_bits j
theorem verify : Statement .verify := statement_of_arg fun _ => rfl

end Sys2Proof.Laws.LegalWord
end

