-- ==== Sys2Proof/Laws/Period.lean ====
section
/-! SUPPORT. The sequence repeats after `PERIOD` terms (rule R93), so a normalised operand stands for the term asked for. -/

namespace Sys2Proof.Machine

/-- The repetition rule R93 rests on, computed by the block's own jump-ahead. -/
theorem term_PERIOD : term PERIOD = 1#64 := by
  have h := Work.jumpAhead_value Work.reset periodWord
  have hn : (normInt periodWord.toInt).toNat = PERIOD := by rw [periodWord_toInt]; decide
  rw [hn] at h
  rw [← h]
  decide +kernel

theorem term_add_PERIOD_mul (n m : Nat) : term (n + PERIOD * m) = term n := by
  induction m with
  | zero => rfl
  | succ m ih =>
    rw [Nat.mul_succ, ← Nat.add_assoc, term_add, term_PERIOD]
    exact ih

theorem term_mod (n : Nat) : term (n % PERIOD) = term n := by
  conv_rhs => rw [← Nat.mod_add_div n PERIOD]
  exact (term_add_PERIOD_mul _ _).symm

/-- Terms whose numbers agree modulo the period agree. -/
theorem term_congr {m n : Nat} (h : m % PERIOD = n % PERIOD) : term m = term n := by
  rw [← term_mod m, h, term_mod]

theorem normInt_emod (n : Int) : normInt n % (PERIOD : Int) = n % (PERIOD : Int) := by
  unfold normInt
  rw [PERIOD_eq]
  split
  · omega
  · split <;> omega

/-- Normalising a non-negative operand does not change its term (rules R100, R106). -/
theorem term_normInt {n : Nat} : term (normInt n).toNat = term n := by
  refine term_congr ?_
  have h := normInt_emod n
  have h0 := (normInt_range (n : Int)).1
  rw [PERIOD_eq] at h
  change _ % 1317624576693539401 = _ % 1317624576693539401
  omega

end Sys2Proof.Machine
end

