-- ==== Sys2Proof/Laws/Updates.lean ====
section
/-! SUPPORT. What the loops of `RUN` and `VERIFY` compute (rules R128, R130, R151, R152), said once each. -/

namespace Sys2Proof.Machine

/-! ### Values derived from `K` -/

/-- The masked index is the value modulo the table size (rule R53). -/
theorem State.index_eq (s : State) (v : Word) : s.index v = v.toNat % 2 ^ s.k.toNat := by
  have hp : 2 ^ s.k.toNat ≤ 2 ^ 63 := Nat.pow_le_pow_right (by omega) (by have := s.k.isLt; omega)
  have : 0 < 2 ^ s.k.toNat := by positivity
  rw [State.index, State.mask, State.tableSize, BitVec.toNat_and, BitVec.toNat_ofNat, Nat.mod_eq_of_lt (by omega),
    Nat.and_two_pow_sub_one_eq_mod]

theorem State.index_lt (s : State) (v : Word) : s.index v < s.tableSize := by
  rw [State.index_eq]; exact Nat.mod_lt _ (by positivity)

/-- `B = 2^(K-5)` (rule R4). -/
theorem State.rounds_eq {s : State} (h : 7 ≤ s.k.toNat) : s.rounds = 2 ^ (s.k.toNat - 5) := by
  obtain ⟨n, hn⟩ := Nat.exists_eq_add_of_le h
  rw [State.rounds, State.nupdate, State.tableSize, NSTREAMS, hn, show 7 + n - 5 = n + 2 by omega,
    show 4 * 2 ^ (7 + n) = 2 ^ (n + 2) * 128 by ring]
  exact Nat.mul_div_cancel _ (by omega)

/-- The streams' blocks make up the whole sequence (rule R4). -/
theorem State.rounds_mul {s : State} (h : 7 ≤ s.k.toNat) : s.rounds * 128 = s.nupdate := by
  obtain ⟨n, hn⟩ := Nat.exists_eq_add_of_le h
  rw [State.rounds, State.nupdate, State.tableSize, NSTREAMS, hn, show 4 * 2 ^ (7 + n) = 2 ^ (n + 2) * 128 by ring,
    Nat.mul_div_cancel _ (by omega)]

/-- The offset of a stream is exact (rule R125). -/
theorem State.seedOffset_toInt {s : State} (h : s.k.toNat ≤ 60) (h7 : 7 ≤ s.k.toNat) (j : BitVec 7) :
    (s.seedOffset j).toInt = ((s.rounds * j.toNat : Nat) : Int) := by
  have hr : s.rounds ≤ 2 ^ 55 := by rw [State.rounds_eq h7]; exact Nat.pow_le_pow_right (by omega) (by omega)
  have hj : s.rounds * j.toNat ≤ 2 ^ 55 * 127 := Nat.mul_le_mul hr (by have := j.isLt; omega)
  have ho : (s.seedOffset j).toNat = s.rounds * j.toNat := by
    rw [State.seedOffset, BitVec.toNat_ofNat, Nat.mod_eq_of_lt (by omega)]
  rw [BitVec.toInt_eq_toNat_of_lt (by omega), ho]

/-- What seeding leaves in each stream register (rule R126). -/
theorem State.readRan_seedAll_eq {s : State} (h7 : 7 ≤ s.k.toNat) (h : s.k.toNat ≤ 60) (j : BitVec 7) :
    s.seedAll.readRan j = term (s.rounds * j.toNat) := by
  rw [State.readRan_seedAll, State.seedOffset_toInt h h7, term_normInt]

/-! ### XOR of a run of values -/

/-- The XOR of `f 0 .. f (n-1)`. -/
def xorUpTo (f : Nat → Word) : Nat → Word
  | 0 => 0#64
  | n + 1 => xorUpTo f n ^^^ f n

theorem xorUpTo_xor (f g : Nat → Word) (n : Nat) :
    xorUpTo (fun i => f i ^^^ g i) n = xorUpTo f n ^^^ xorUpTo g n := by
  induction n with
  | zero => exact BitVec.xor_zero.symm
  | succ n ih => rw [xorUpTo, xorUpTo, xorUpTo, ih]; ac_rfl

theorem xorUpTo_zero (n : Nat) : xorUpTo (fun _ => 0#64) n = 0#64 := by
  induction n with
  | zero => rfl
  | succ n ih => rw [xorUpTo, ih]; rfl

theorem xorUpTo_congr {f g : Nat → Word} {n : Nat} (h : ∀ i, i < n → f i = g i) : xorUpTo f n = xorUpTo g n := by
  induction n with
  | zero => rfl
  | succ n ih => rw [xorUpTo, xorUpTo, ih fun i hi => h i (by omega), h n (by omega)]

theorem xorUpTo_add (f : Nat → Word) (m n : Nat) :
    xorUpTo f (m + n) = xorUpTo f m ^^^ xorUpTo (fun i => f (m + i)) n := by
  induction n with
  | zero => exact (BitVec.xor_zero).symm
  | succ n ih => rw [← Nat.add_assoc, xorUpTo, ih, xorUpTo, BitVec.xor_assoc]

/-- Consecutive blocks joined into one run. -/
theorem xorUpTo_blocks (f : Nat → Word) (b n : Nat) :
    xorUpTo (fun j => xorUpTo (fun i => f (b * j + i)) b) n = xorUpTo f (b * n) := by
  induction n with
  | zero => rfl
  | succ n ih => rw [xorUpTo, ih, Nat.mul_succ, xorUpTo_add]

/-- What an update with value `v` adds to word `a` (rule R122). -/
def State.share (s : State) (a : Nat) (v : Word) : Word := if s.index v = a then v else 0#64

theorem State.streamXor_eq (s : State) (a n : Nat) :
    s.streamXor a n = xorUpTo (fun m => s.share a (term (m + 1))) n := by
  induction n with
  | zero => rfl
  | succ n ih => rw [State.streamXor, ih]; rfl

theorem State.share_congr {s t : State} (h : t.k = s.k) : t.share = s.share := by
  funext a v
  rw [State.share, State.share, State.index_eq, State.index_eq, h]

theorem State.readTable_xupd_share {s : State} (h : Memory.wf s.table) (v : Word) (a : Nat) :
    (s.xupd v).readTable a = s.readTable a ^^^ s.share a v := by
  rw [State.readTable_xupd h, State.share]
  by_cases ha : a = s.index v
  · rw [if_pos ha, if_pos ha.symm]
  · rw [if_neg ha, if_neg (Ne.symm ha), BitVec.xor_zero]

/-! ### The update phase -/

/-- One round of the update phase (rule R128): each stream advances once and adds its new value. -/
structure State.RoundOf (s t : State) : Prop where
  wf : Memory.wf t.table
  k : t.k = s.k
  ran : ∀ j, t.readRan j = T (s.readRan j)
  table : ∀ a, t.readTable a =
    s.readTable a ^^^ xorUpTo (fun j => s.share a (T (s.readRan (BitVec.ofNat 7 j)))) 128

theorem State.forJ_updStream {s : State} (h : Memory.wf s.table) : s.RoundOf (s.forJ State.updStream) := by
  have key : ∀ n, n ≤ 128 →
      let u := iter n (fun j t => (State.updStream (BitVec.ofNat 7 j) t).setJ (j + 1)) (s.setJ 0)
      Memory.wf u.table ∧ u.k = s.k ∧
      (∀ j : BitVec 7, u.readRan j = if j.toNat < n then T (s.readRan j) else s.readRan j) ∧
      ∀ a, u.readTable a =
        s.readTable a ^^^ xorUpTo (fun j => s.share a (T (s.readRan (BitVec.ofNat 7 j)))) n := by
    intro n
    induction n with
    | zero => exact fun _ => ⟨h, rfl, fun j => rfl, fun a => (BitVec.xor_zero).symm⟩
    | succ n ih =>
      intro hn
      obtain ⟨hw, hk, hr, ht⟩ := ih (by omega)
      dsimp only at hw hk hr ht ⊢
      rw [iter_succ]
      generalize iter n _ (s.setJ 0) = u at *
      have hnn : (BitVec.ofNat 7 n).toNat = n := by rw [BitVec.toNat_ofNat]; omega
      have hself : u.readRan (BitVec.ofNat 7 n) = s.readRan (BitVec.ofNat 7 n) := by
        rw [hr, hnn, if_neg (by omega)]
      refine ⟨State.xupd_wf (by simpa using hw) _, hk, fun j => ?_, fun a => ?_⟩
      · rw [State.setJ_readRan, State.readRan_updStream, hself, hr]
        by_cases hj : j = BitVec.ofNat 7 n
        · rw [if_pos hj, if_pos (by rw [hj, hnn]; omega), hj]
        · have : j.toNat ≠ n := fun he => hj (BitVec.eq_of_toNat_eq (by rw [hnn, he]))
          rw [if_neg hj]
          exact if_congr (by omega) rfl rfl
      · rw [State.setJ_readTable, State.updStream, State.readTable_xupd_share (by simpa using hw), hself,
          State.share_congr (s := s) (by simpa using hk), xorUpTo, ← BitVec.xor_assoc, ← ht]
        rfl
  obtain ⟨h1, h2, h3, h4⟩ := key 128 le_rfl
  unfold State.forJ
  exact ⟨h1, h2, fun j => (h3 j).trans (if_pos j.isLt), h4⟩

/-- What `n` rounds in a row compute: each stream advances `n` times, and every value it takes on the way is added. -/
theorem State.forI_rounds {s : State} (h : Memory.wf s.table) {round : State → State}
    (hr : ∀ t : State, Memory.wf t.table → t.RoundOf (round t)) (n : Nat) :
    (∀ j, (s.forI n fun _ => round).readRan j = T^[n] (s.readRan j)) ∧
    ∀ a, (s.forI n fun _ => round).readTable a = s.readTable a ^^^
      xorUpTo (fun j => xorUpTo (fun i => s.share a (T^[i + 1] (s.readRan (BitVec.ofNat 7 j)))) n) 128 := by
  let P : Nat → State → Prop := fun n u => Memory.wf u.table ∧ u.k = s.k ∧ (∀ j, u.readRan j = T^[n] (s.readRan j)) ∧
      ∀ a, u.readTable a = s.readTable a ^^^
        xorUpTo (fun j => xorUpTo (fun i => s.share a (T^[i + 1] (s.readRan (BitVec.ofNat 7 j)))) n) 128
  have key : P n (s.forI n fun _ => round) := by
    unfold State.forI
    refine iter_rec P ⟨h, rfl, fun j => rfl, fun a => ?_⟩ fun i t _ ht => ?_
    · exact (congrArg _ (xorUpTo_zero 128)).trans BitVec.xor_zero |>.symm
    · obtain ⟨hw, hk, hran, hm⟩ := ht
      have hround := hr t hw
      refine ⟨hround.wf, hround.k.trans hk, fun j => ?_, fun a => ?_⟩
      · rw [State.setI_readRan, hround.ran, hran, Function.iterate_succ_apply']
      · rw [State.setI_readTable, hround.table, hm, State.share_congr hk, BitVec.xor_assoc, ← xorUpTo_xor]
        refine congrArg _ (xorUpTo_congr fun j _ => ?_)
        rw [hran, xorUpTo, Function.iterate_succ_apply']
  exact ⟨key.2.2.1, key.2.2.2⟩

/-- What the update phase computes from any streams (rule R128): each stream advances `B` times, and every value it
takes on the way is added to the table. -/
theorem State.updateRounds_spec {s : State} (h : Memory.wf s.table) :
    (∀ j, s.updateRounds.readRan j = T^[s.rounds] (s.readRan j)) ∧
    ∀ a, s.updateRounds.readTable a = s.readTable a ^^^
      xorUpTo (fun j => xorUpTo (fun i => s.share a (T^[i + 1] (s.readRan (BitVec.ofNat 7 j)))) s.rounds) 128 :=
  State.forI_rounds h (fun _ ht => State.forJ_updStream ht) s.rounds

/-- An update writes below the table size only (rule R53). -/
theorem State.xupd_fits {s : State} {b : Nat} (hb : s.tableSize ≤ b) (h : ∀ c ∈ s.table, c.1 < b) (v : Word) :
    ∀ c ∈ (s.xupd v).table, c.1 < b := fun c hc => by
  have := s.index_lt v
  rcases Memory.mem_write hc with hc | hc
  · omega
  · exact h c hc

/-- The update phase writes below the table size only. -/
theorem State.updateRounds_fits {s : State} {b : Nat} (hb : s.tableSize ≤ b) (h : ∀ c ∈ s.table, c.1 < b) :
    ∀ c ∈ s.updateRounds.table, c.1 < b := by
  let P : State → Prop := fun t => t.tableSize ≤ b ∧ ∀ c ∈ t.table, c.1 < b
  have key : P (s.forI s.rounds fun _ t => t.forJ State.updStream) :=
    forI_keeps P (fun _ _ ht => ht) ⟨hb, h⟩ fun _ t ht =>
      forJ_keeps P (fun _ _ hu => hu) ht fun j u hu => ⟨hu.1, State.xupd_fits (s := u.writeRan j _) hu.1 hu.2 _⟩
  exact key.2

/-! ### Verification -/

/-- The replay writes below the table size only. -/
theorem State.replay_fits {s : State} {b : Nat} (hb : s.tableSize ≤ b) (h : ∀ c ∈ s.table, c.1 < b) :
    ∀ c ∈ s.replay.table, c.1 < b := by
  let P : State → Prop := fun t => t.tableSize ≤ b ∧ ∀ c ∈ t.table, c.1 < b
  have key : P ((s.setVran 1#64).forI s.nupdate State.replayStep) :=
    forI_keeps P (fun _ _ ht => ht) ⟨hb, h⟩ fun _ u hu => ⟨hu.1, State.xupd_fits (s := u.setVran _) hu.1 hu.2 _⟩
  exact key.2

/-- What the replay computes (rules R130, R151): the whole sequence added to the table from a single stream. -/
theorem State.readTable_replay {s : State} (h : Memory.wf s.table) (a : Nat) :
    s.replay.readTable a = s.readTable a ^^^ s.streamXor a s.nupdate := by
  let P : Nat → State → Prop := fun n u => Memory.wf u.table ∧ u.k = s.k ∧ u.work.vran = term n ∧
      u.readTable a = s.readTable a ^^^ s.streamXor a n
  have key : P s.nupdate s.replay := by
    unfold State.replay State.forI
    refine iter_rec P ⟨h, rfl, rfl, (BitVec.xor_zero).symm⟩ fun i t _ ht => ?_
    obtain ⟨hw, hk, hv, hm⟩ := ht
    have hv' : T t.work.vran = term (i + 1) := by rw [hv, term_succ]
    refine ⟨State.xupd_wf (s := t.setVran _) hw _, hk, hv', ?_⟩
    have hx := State.readTable_xupd_share (s := t.setVran (T t.work.vran)) hw (T t.work.vran) a
    rw [State.share_congr (s := s) (t := t.setVran (T t.work.vran)) hk, hv'] at hx
    rw [State.setI_readTable, State.replayStep, hv', hx]
    change t.readTable a ^^^ _ = _
    rw [hm, BitVec.xor_assoc]
    rfl
  exact key.2.2.2

/-- What COUNT leaves in `ERRCNT` (rule R152): the number of words that differ from their index. -/
theorem State.countErrors_errcnt (s : State) : s.countErrors.errcnt = BitVec.ofNat 64 s.mismatches := by
  let P : Nat → State → Prop := fun n u => u.table = s.table ∧
      u.errcnt = BitVec.ofNat 64 (Nat.count (fun i => s.readTable i ≠ BitVec.ofNat 64 i) n)
  have key : P s.tableSize s.countErrors := by
    unfold State.countErrors State.forI
    refine iter_rec P ⟨rfl, by rw [Nat.count_zero]; rfl⟩ fun i t _ ht => ?_
    obtain ⟨hm, he⟩ := ht
    have hr : t.readTable i = s.readTable i := by rw [State.readTable, hm]; rfl
    have hs : P (i + 1) (State.countWord i t) := by
      by_cases hd : s.readTable i ≠ BitVec.ofNat 64 i
      · refine ⟨by rw [State.countWord, hr, if_pos hd]; exact hm, ?_⟩
        rw [State.countWord, hr, if_pos hd, Nat.count_succ, if_pos hd, BitVec.ofNat_add, ← he]
      · refine ⟨by rw [State.countWord, hr, if_neg hd]; exact hm, ?_⟩
        rw [State.countWord, hr, if_neg hd, Nat.count_succ, if_neg hd]
        exact he
    exact hs
  exact key.2

theorem State.mismatches_le (s : State) : s.mismatches ≤ s.tableSize := Nat.count_le _

/-- The count does not wrap: `ERRCNT` is exact (rule R29). -/
theorem State.countErrors_toNat (s : State) : s.countErrors.errcnt.toNat = s.mismatches := by
  have h1 := s.mismatches_le
  have h2 : s.tableSize ≤ 2 ^ 63 := Nat.pow_le_pow_right (by omega) (by have := s.k.isLt; omega)
  rw [State.countErrors_errcnt, BitVec.toNat_ofNat, Nat.mod_eq_of_lt (by omega)]

end Sys2Proof.Machine
end

