-- ==== Sys2Proof/Tests/Slice0.lean ====
section
/-! SUPPORT. Tests with results from 95_test_vectors.md, and a witness for the hypotheses of each statement. -/

namespace Sys2Proof.Tests

open Sys2Proof.Machine

/-! ### Helpers -/

/-- The state a command leaves. -/
def after (o : Host.Outcome State Fault Refusal) : State :=
  match o with
  | .next t => t
  | .fault _ => State.reset
  | .refused _ => State.reset

/-- The last response a command leaves. -/
def answer (o : Host.Outcome State Fault Refusal) : Option Response := (after o).responses.getLast?

/-- "K7" of the spec's vectors: a block straight after `CFG 7`. -/
def k7 : State := { State.reset with k := 7#6 }

/-- "K7 +T": then `TINIT`. -/
def k7T : State := { k7 with tvalid := true }

/-- "K7 +T +S", but every stream at state 1. -/
def ready : State := { k7T with svalid := true, ran := Vector.replicate 128 1#64 }

/-- A faulted block, `CAUSE = 5`. -/
def faulted : State := { State.reset with fault := true, cause := 5#4 }

/-- `s` with one command word issued. -/
def offered (w : BitVec 68) (s : State) : State := { s with inputs := [.command w] }

/-! ### Well-formedness (rule R73) -/

theorem test_cfg_field : (Instr.cfg 63).wellFormed = true ∧ (Instr.cfg 64).wellFormed = false := by decide
theorem test_rds_field : (Instr.rds 15).wellFormed = true ∧ (Instr.rds 16).wellFormed = false := by decide
theorem test_trd_field :
    (Instr.trd (2 ^ 60 - 1)).wellFormed = true ∧ (Instr.trd (2 ^ 60)).wellFormed = false := by decide

/-! ### Decoding (sections 4 and 5 of the vectors; the bits by rules R72, R73, R75) -/

theorem test_decode_nop : decode 0x00000000000000000#68 = .command .nop := by decide
theorem test_decode_cfg : decode 0x10000000000000007#68 = .command (.cfg 7) := by decide
theorem test_decode_cfg_top : decode 0x1000000000000003F#68 = .command (.cfg 63) := by decide
theorem test_decode_rds : decode 0x20000000000000004#68 = .command (.rds 4) := by decide
theorem test_decode_starts : decode 0x3EDB6DB6DB6DB6DB7#68 = .command (.starts (BitVec.ofInt 64 (-1317624576693539401))) := by
  decide
theorem test_decode_step : decode 0x4000000000000007F#68 = .command (.step 127#7) := by decide
theorem test_decode_tinit : decode 0x50000000000000000#68 = .command .tinit := by decide
theorem test_decode_txor : decode 0x6FFFFFFFFFFFFFF85#68 = .command (.txor 0xFFFFFFFFFFFFFF85#64) := by decide
theorem test_decode_trd : decode 0x70FFFFFFFFFFFFFFF#68 = .command (.trd 1152921504606846975) := by decide
theorem test_decode_seed : decode 0x80000000000000000#68 = .command .seed := by decide
theorem test_decode_upd : decode 0x90000000000000005#68 = .command (.upd 5#7) := by decide
theorem test_decode_run : decode 0xA0000000000000000#68 = .command .run := by decide
theorem test_decode_rdr : decode 0xB0000000000000040#68 = .command (.rdr 64#7) := by decide
theorem test_decode_verify : decode 0xC0000000000000000#68 = .command .verify := by decide

/-- Reserved opcodes (rule R76). -/
theorem test_decode_reserved_opcodes :
    decode 0xD0000000000000000#68 = .error .illegalOp ∧ decode 0xE0000000000000005#68 = .error .illegalOp ∧
    decode 0xFFFFFFFFFFFFFFFFF#68 = .error .illegalOp := by decide

/-- The first reserved bit of each format (rules R73, R77). -/
theorem test_decode_reserved_bits :
    decode 0x00000000000000001#68 = .error .reservedBits ∧ decode 0x10000000000000047#68 = .error .reservedBits ∧
    decode 0x20000000000000010#68 = .error .reservedBits ∧ decode 0x40000000000000080#68 = .error .reservedBits ∧
    decode 0x71000000000000000#68 = .error .reservedBits ∧ decode 0x88000000000000000#68 = .error .reservedBits := by
  decide

theorem test_encode_words :
    encode (.starts (BitVec.ofInt 64 (-1))) = 0x3FFFFFFFFFFFFFFFF#68 ∧ encode (.trd 5) = 0x70000000000000005#68 ∧
    encode (.rdr 127#7) = 0xB000000000000007F#68 := by decide

theorem test_decode_table_word :
    decodeTableWord 72 0x1000000000000001C = some (.cfg 28) ∧ decodeTableWord 72 0xD0000000000000000 = none ∧
    decodeTableWord 72 (2 ^ 68) = none := by decide

/-! ### The written form (rules R84, R85) -/

theorem test_assemble_negative : assembleLine "STARTS -1".toList = some [0x3FFFFFFFFFFFFFFFF#68] := by decide
theorem test_assemble_stream_name : assembleLine "RDR s127 ; last".toList = some [0xB000000000000007F#68] := by decide
theorem test_assemble_refused : assembleLine "RDS 16".toList = none ∧ assembleLine "step 5".toList = none := by decide
theorem test_print_word : printWord 0x3FFFFFFFFFFFFFFFF#68 = "3:FFFFFFFFFFFFFFFF".toList := by decide

/-! ### Micro-operations (sections 2 to 4 of the vectors) -/

theorem test_T_fold : T 0xFEDCBA9876543210#64 = 0xFDB97530ECA86427#64 ∧ T 0x8000000000000003#64 = 1#64 := by decide
theorem test_norm_ends :
    (Work.reset.norm 0x8000000000000000#64).jn = 0x1249249249249248#64 ∧
    (Work.reset.norm 0x7FFFFFFFFFFFFFFF#64).jn = 0x1249249249249249#64 := by decide +kernel
theorem test_build_last_row : Work.reset.build.readM2 63#6 = 0xC000000000000007#64 := by decide +kernel
theorem test_sqr_mixed : (Work.reset.build.sqr 0x0123456789ABCDEF#64).jtemp = 0x4046585E2026383E#64 := by decide +kernel
theorem test_tolerance :
    { k7T with errcnt := 1#64 }.withinTolerance = true ∧ { k7T with errcnt := 2#64 }.withinTolerance = false := by decide

/-! ### Commands (section 5.1 of the vectors) -/

theorem test_nop : answer (exec .nop State.reset) = some 0#65 := by decide
theorem test_cfg : (after (exec (.cfg 7) State.reset)).k = 7#6 := by decide
theorem test_cfg_refused : answer (exec (.cfg 6) State.reset) = some 0x10000000000000003#65 := by decide
theorem test_rds_nupdate : answer (exec (.rds 3) State.reset) = some 0x40000000#65 := by decide
theorem test_rds_status : answer (exec (.rds 0) { ready with vdone := true, pass := true }) = some 0xF#65 := by decide
theorem test_starts_508 : answer (exec (.starts 508#64) State.reset) = some 0x0B000000000001013#65 := by decide +kernel
theorem test_starts_minus_one : answer (exec (.starts (BitVec.ofInt 64 (-1))) State.reset) = some 0x08000000000000003#65 := by
  decide +kernel
theorem test_step : (after (exec (.step 127#7) (ready.writeRan 127#7 0xB000000000001013#64))).readRan 127#7 =
    0x6000000000002021#64 := by decide
theorem test_step_refused : answer (exec (.step 0#7) State.reset) = some 0x10000000000000006#65 := by decide
theorem test_tinit : (after (exec .tinit { k7 with table := [(5, 0#64), (200, 1#64)] })).table = [(200, 1#64)] := by decide
theorem test_txor : (after (exec (.txor 0xFFFFFFFFFFFFFF85#64) k7T)).readTable 5 = 0xFFFFFFFFFFFFFF80#64 := by decide
theorem test_txor_refused : answer (exec (.txor 0#64) State.reset) = some 0x10000000000000005#65 := by decide
theorem test_trd : answer (exec (.trd 127) k7T) = some 0x7F#65 := by decide
theorem test_trd_refused : answer (exec (.trd 128) k7T) = some 0x10000000000000007#65 := by decide
theorem test_seed_pass : (State.seedStream 127#7 k7).readRan 127#7 = 0xB000000000001013#64 := by decide +kernel
theorem test_upd_word : (after (exec (.upd 0#7) ready)).readTable 2 = 0#64 := by decide
theorem test_upd_answer : answer (exec (.upd 0#7) ready) = some 2#65 := by decide
theorem test_rdr : answer (exec (.rdr 0#7) ready) = some 1#65 := by decide
theorem test_verify_errors : answer (exec .verify k7T) = some 0x32#65 := by decide +kernel
/-- One round of RUN, by hand: 128 streams at 1 each add 2 to word 2, an even number of times. -/
theorem test_run_round : (ready.forJ State.updStream).readTable 2 = 2#64 := by decide +kernel
theorem test_run_refused : answer (exec .run k7) = some 0x10000000000000005#65 := by decide

/-! ### The channel (sections 5.2 of the vectors) -/

theorem test_priority : answer (step (offered 0x71000000000000000#68 State.reset)) = some 0x10000000000000002#65 := by decide
theorem test_faulted_refuses :
    answer (step (offered 0xD0000000000000000#68 faulted)) = some 0x10000000000000005#65 := by decide
theorem test_reset_in_command :
    (after (step { faulted with inputs := [.resetDuring 0xA0000000000000000#68] })).fault = false := by decide
theorem test_fetch_word : step (State.reset.withFetchWord 72 0x20000000000000001) = exec (.rds 1) State.reset := by rfl

/-! ### Witnesses: a state and operands that meet the hypotheses of each statement, at the ends of their ranges -/

theorem ready_readRan (j : BitVec 7) : ready.readRan j = term 0 := Vector.getElem_replicate _

/-- A state of the invariant that is not the reset state. -/
theorem ready_inv : ready.Inv where
  params := by decide
  kLow := by decide
  kHigh := by decide
  tableWf := by decide
  tableFits := by decide
  streams := fun _ j => ⟨0, ready_readRan j⟩
  done := by decide
  notDone := by decide
  noFault := by decide
  faultCode := by decide

/-- A block with a command pending, between runs, every flag set. -/
def busy (w : BitVec 68) : State := offered w { ready with vdone := true, pass := true }

theorem witness_DecodeReadsEncodedCommand :
    (Instr.cfg 63).wellFormed = true ∧ (Instr.rds 15).wellFormed = true ∧ (Instr.trd (2 ^ 60 - 1)).wellFormed = true := by
  decide
theorem witness_EncodeRebuildsDecodedWord : decode 0x1000000000000003F#68 = .command (.cfg 63) := by decide
theorem witness_OpcodeTableRowsSelectWords :
    (0x70000000000000000#68, 0x0F000000000000000#68) ∈ opcodeRows ∧
    0x71000000000000000#68 &&& opcodeMask = 0x70000000000000000#68 ∧
    0x71000000000000000#68 &&& 0x0F000000000000000#68 ≠ 0#68 ∧
    0x70FFFFFFFFFFFFFFF#68 &&& opcodeMask = 0x70000000000000000#68 ∧
    0x70FFFFFFFFFFFFFFF#68 &&& 0x0F000000000000000#68 = 0#68 ∧
    ∀ r ∈ opcodeRows, 0xD0000000000000000#68 &&& opcodeMask ≠ r.1 :=
  ⟨by decide, by decide, by decide, by decide, by decide, by simp [opcodeRows, opcodeMask]⟩
theorem witness_StepRunsDecodedCommand :
    (busy 0x4000000000000007F#68).inputs = .command 0x4000000000000007F#68 :: [] ∧
    decode 0x4000000000000007F#68 = .command (.step 127#7) := by decide
theorem witness_OneResponsePerCommand :
    (busy 0xFFFFFFFFFFFFFFFFF#68).inputs = .command 0xFFFFFFFFFFFFFFFFF#68 :: [] := by decide
theorem witness_WaitingBlockIsUnchanged : State.reset.inputs = [] := by decide
/-- Each code of the first failing check, and a command that passes every check. -/
theorem witness_FirstFailingCheckRaises :
    ready.fault = false ∧ (busy 0x90000000000000000#68).inputs = .command 0x90000000000000000#68 :: [] ∧
    ready.firstFault 9 0 = 0 ∧ ready.firstFault 13 0 = 1 ∧ ready.firstFault 9 128 = 2 ∧ ready.firstFault 1 6 = 3 ∧
    ready.firstFault 1 29 = 3 ∧ ready.firstFault 2 5 = 4 ∧ k7.firstFault 9 127 = 5 ∧ k7T.firstFault 9 127 = 6 ∧
    ready.firstFault 7 128 = 7 ∧ ready.firstFault 7 127 = 0 ∧ ready.firstFault 1 7 = 0 ∧ ready.firstFault 1 28 = 0 := by
  decide
theorem witness_MalformedWordsRaise :
    (busy 0xD0000000000000000#68).fault = false ∧ 0xD ≤ (opField 0xD0000000000000000#68).toNat ∧
    (0x00000000000000000#68, 0x0FFFFFFFFFFFFFFFF#68) ∈ opcodeRows ∧
    0x08000000000000000#68 &&& opcodeMask = 0x00000000000000000#68 ∧
    0x08000000000000000#68 &&& 0x0FFFFFFFFFFFFFFFF#68 ≠ 0#68 := by decide
theorem witness_FaultEntryIsPrecise :
    (offered 0x60000000000000000#68 k7).fault = false ∧
    (after (step (offered 0x60000000000000000#68 k7))).fault = true ∧
    step (offered 0x60000000000000000#68 k7) = .next (after (step (offered 0x60000000000000000#68 k7))) :=
  ⟨by decide, by decide, rfl⟩
theorem witness_FaultedBlockRefusesEveryCommand :
    (offered 0x20000000000000000#68 faulted).fault = true ∧
    (offered 0x20000000000000000#68 faulted).inputs = .command 0x20000000000000000#68 :: [] := by decide
/-- A command, which does not leave the faulted state, and a reset, which does. -/
theorem witness_OnlyResetLeavesTheFaultedState :
    (after (step (offered 0x00000000000000000#68 faulted))).fault = true ∧
    (after (step { faulted with inputs := [.reset] })).fault = false := by decide
theorem witness_ResetGivesResetValues :
    { ready with inputs := [Input.reset] }.inputs = .reset :: [] ∧ ∀ w, Input.reset ≠ .command w := by
  refine ⟨rfl, ?_⟩
  intro w h
  cases h
theorem witness_NopRespondsZero : ready.fault = false := by decide
theorem witness_CfgChoosesTableSize :
    ready.fault = false ∧ 7 ≤ 7 ∧ 7 ≤ ready.params.kMax ∧ 28 ≤ ready.params.kMax ∧ ready.params.kMax ≤ 60 := by decide
theorem witness_CfgOutOfRangeIsTerminal : ready.fault = false ∧ 6 < 7 ∧ ready.params.kMax < 29 := by decide
theorem witness_RdsReadsStatusRegisters : ready.fault = false ∧ 0 ≤ 4 ∧ 4 ≤ 4 ∧ ready.k.toNat ≤ 60 := by decide
theorem witness_RdsUnassignedNumberRaises : ready.fault = false ∧ 5 ≤ 5 ∧ 15 ≤ 15 := by decide
theorem witness_TransitionBitByBit : 3 ≤ 63 ∧ 63 ≤ 63 := by decide
theorem witness_TransitionIsLinearBijection : 0x8000000000000003#64 ≠ 0#64 ∧ 63 ≤ 63 := by decide
theorem witness_SequenceHasExactPeriod : 0 < PERIOD - 1 ∧ PERIOD - 1 < PERIOD ∧ 649657 ∈ [7, 73, 127, 337, 92737, 649657] := by
  decide
theorem witness_StepAdvancesOneStream : ready.fault = false ∧ ready.svalid = true ∧ 126#7 ≠ 127#7 := by decide
theorem witness_RdrReadsOneStream : ready.fault = false ∧ ready.svalid = true := by decide
theorem witness_StreamReadersNeedSeededStreams : k7T.fault = false ∧ k7T.svalid = false ∧ k7T.tvalid = true := by decide
theorem witness_MsbFindsTopBit :
    { Work.reset with jn := 1#64 }.jn ≠ 0#64 ∧ { Work.reset with jn := 1#64 }.jn.toNat ≤ PERIOD ∧
    { Work.reset with jn := periodWord }.jn ≠ 0#64 ∧ { Work.reset with jn := periodWord }.jn.toNat ≤ PERIOD := by decide
theorem witness_StartsLeavesWorkingSet :
    ready.fault = false ∧ normInt (0x8000000000000000#64 : Word).toInt ≠ 0 ∧ normInt (1#64 : Word).toInt ≠ 0 := by decide
/-- A zero operand, one that normalises to zero, one above and one below the range, the ends of the operand. -/
theorem witness_StartsAnswersNthTerm :
    ready.fault = false ∧ normInt (0#64 : Word).toInt = 0 ∧ normInt (0xEDB6DB6DB6DB6DB7#64 : Word).toInt = 0 ∧
    (0xEDB6DB6DB6DB6DB7#64 : Word).toInt < 0 ∧ 0 ≤ (0x7FFFFFFFFFFFFFFF#64 : Word).toInt := by decide
theorem witness_StartsIsPeriodic :
    (0x6DB6DB6DB6DB6DB6#64 : Word).toInt + (PERIOD : Int) < 2 ^ 63 ∧
    (0x8000000000000000#64 : Word).toInt + (PERIOD : Int) < 2 ^ 63 := by decide
theorem witness_SeedSetsEveryStream :
    k7.fault = false ∧ 7 ≤ k7.k.toNat ∧ k7.k.toNat ≤ 60 ∧ 7 ≤ { k7 with k := 60#6 }.k.toNat ∧
    { k7 with k := 60#6 }.k.toNat ≤ 60 := by decide
theorem witness_MaskedIndexIsModulo : k7T.fault = false ∧ k7T.tvalid = true := by decide
theorem witness_TinitMakesTheTableTheIdentity : k7.fault = false ∧ 127 < 2 ^ k7.k.toNat ∧ ¬ 128 < 2 ^ k7.k.toNat := by decide
theorem witness_TinitIsTheLoopOfWrites : Memory.wf [(0, 1#64), (200, 7#64)] := by decide
theorem witness_TxorUpdatesOneWord :
    { k7T with table := [(5, 0#64)] }.fault = false ∧ { k7T with table := [(5, 0#64)] }.tvalid = true ∧
    Memory.wf { k7T with table := [(5, 0#64)] }.table := by decide
theorem witness_TrdReadsOneWord : k7T.fault = false ∧ k7T.tvalid = true ∧ 127 < 2 ^ k7T.k.toNat := by decide
theorem witness_OnlyDirectIndexCanBeOutOfRange :
    ready.fault = false ∧ ready.tvalid = true ∧ ready.svalid = true ∧ 2 ^ ready.k.toNat ≤ 128 := by decide
theorem witness_TableReadersNeedInitialisedTable : k7.fault = false ∧ k7.tvalid = false := by decide
theorem witness_UpdAdvancesThenUpdates :
    ready.fault = false ∧ ready.tvalid = true ∧ ready.svalid = true ∧ Memory.wf ready.table ∧ 0#7 ≠ 127#7 := by decide
theorem witness_XorUpdatesAreOrderIndependent :
    Memory.wf ready.table ∧ [1#64, 129#64, 2#64].Perm [2#64, 1#64, 129#64] := by decide
theorem witness_TxorTwiceRestoresTheTable : ready.fault = false ∧ ready.tvalid = true ∧ Memory.wf ready.table := by decide
theorem witness_RunAppliesTheWholeSequence :
    k7T.fault = false ∧ k7T.tvalid = true ∧ 7 ≤ k7T.k.toNat ∧ k7T.k.toNat ≤ 60 ∧ Memory.wf k7T.table := by decide
theorem witness_RunIsSeedThenRoundsOfUpdates : k7T.fault = false ∧ k7T.tvalid = true ∧ 7 ≤ k7T.k.toNat := by decide
theorem witness_SecondRunRestoresTheTable :
    { k7T with table := [(3, 9#64)] }.fault = false ∧ { k7T with table := [(3, 9#64)] }.tvalid = true ∧
    7 ≤ { k7T with table := [(3, 9#64)] }.k.toNat ∧ { k7T with table := [(3, 9#64)] }.k.toNat ≤ 60 ∧
    Memory.wf { k7T with table := [(3, 9#64)] }.table := by decide
theorem witness_VerifyReplaysCountsAndJudges : k7T.fault = false ∧ k7T.tvalid = true ∧ Memory.wf k7T.table := by decide
theorem witness_PipelineEndsWithNoErrors :
    k7.fault = false ∧ 7 ≤ k7.k.toNat ∧ k7.k.toNat ≤ 60 ∧ Memory.wf k7.table ∧
    ∀ i ∈ [Instr.seed, .step 3#7] ++ [Instr.trd 127, .rds 0], changesTable i = false := by decide
theorem witness_ResetMeetsTheInvariant : Params.default.Valid ∧ (⟨60, 7, 1, 1⟩ : Params).Valid := by decide
theorem witness_EveryStepKeepsTheInvariant : ready.Inv ∧ step ready = .next ready := ⟨ready_inv, rfl⟩
/-- Two different states the host cannot tell apart. -/
theorem witness_UnspecifiedStorageNeverShows :
    State.Alike k7 { k7 with ran := ready.ran, table := [(3, 0#64)] } ∧ Memory.wf k7.table ∧
    Memory.wf [(3, 0#64)] ∧ k7 ≠ { k7 with ran := ready.ran, table := [(3, 0#64)] } := by
  refine ⟨⟨rfl, rfl, rfl, rfl, rfl, rfl, rfl, rfl, rfl, rfl, rfl, ?_, ?_⟩, by decide, by decide, ?_⟩
  · exact fun h => absurd h (by decide)
  · exact fun h => absurd h (by decide)
  · exact fun h => absurd (congrArg State.table h) (by decide)
theorem witness_NoGeneratorStateIsZero : ready.Inv ∧ step ready = .next ready ∧ ready.svalid = true :=
  ⟨ready_inv, rfl, rfl⟩
theorem witness_FlagsChangeAsTheirTableSays :
    ready.fault = false ∧ exec .tinit ready = .next (after (exec .tinit ready)) ∧ (after (exec .tinit ready)).fault = false :=
  ⟨rfl, rfl, rfl⟩
theorem witness_OnlyStreamCommandsWriteStreams : exec (.step 5#7) ready = .next (after (exec (.step 5#7) ready)) := rfl
theorem witness_OnlyTableCommandsWriteTheTable : exec (.txor 5#64) ready = .next (after (exec (.txor 5#64) ready)) := rfl
theorem witness_OnlyCfgAndResetWriteK :
    step (busy 0x10000000000000008#68) = .next (after (step (busy 0x10000000000000008#68))) := rfl

end Sys2Proof.Tests
end

section
/-! SUPPORT. The masked index and the order of XOR updates (rules R53, R59). -/

namespace Sys2Proof.Machine

/-! ### The masked index -/

/-- Rule R53 in its second form, `v[K-1:0]`. -/
theorem State.index_eq_lowBits (s : State) (v : Word) : s.index v = (v.extractLsb' 0 s.k.toNat).toNat := by
  rw [State.index_eq, BitVec.extractLsb'_toNat, Nat.shiftRight_zero]

/-- The word at the masked index takes the whole value, the bits above the index too (rules R53, R122). -/
theorem State.readTable_xupd_index {s : State} (h : Memory.wf s.table) (v : Word) :
    (s.xupd v).readTable (s.index v) = s.readTable (s.index v) ^^^ v := by
  rw [State.readTable_xupd h, if_pos rfl]

/-- Settles O35: the mask keeps the `K` low bits, so the check of the table is the only one `TXOR` makes. -/
theorem maskedIndexIsModulo : Obligations.MaskedIndexIsModulo := by
  intro s v
  refine ⟨s.index_eq v, s.index_eq_lowBits v, s.index_lt v, fun hf ht => ?_⟩
  exact ⟨_, exec_txor hf ht v, hf, fun hw => State.readTable_xupd_index hw v⟩

/-! ### Lists of updates -/

/-- The closed form of rule R59, from any table in canonical form. -/
theorem State.readTable_foldl_xupd (us : List Word) {s : State} (h : Memory.wf s.table) (a : Nat) :
    (us.foldl State.xupd s).readTable a =
      us.foldl (fun x v => if v.toNat % 2 ^ s.k.toNat = a then x ^^^ v else x) (s.readTable a) := by
  induction us generalizing s with
  | nil => rfl
  | cons u us ih =>
    have hu : (s.xupd u).readTable a =
        if u.toNat % 2 ^ s.k.toNat = a then s.readTable a ^^^ u else s.readTable a := by
      rw [State.readTable_xupd h, State.index_eq]
      exact if_congr eq_comm rfl rfl
    rw [List.foldl_cons, List.foldl_cons, ih (State.xupd_wf h u), State.xupd_k, hu]

/-- Two updates commute, also where they meet in one word: XOR does, and a table in canonical form is what it reads as. -/
theorem State.xupd_comm {s : State} (h : Memory.wf s.table) (u v : Word) :
    (s.xupd u).xupd v = (s.xupd v).xupd u := by
  have hu := State.xupd_wf h u
  have hv := State.xupd_wf h v
  have ht : ((s.xupd u).xupd v).table = ((s.xupd v).xupd u).table := by
    refine Memory.ext (State.xupd_wf hu v) (State.xupd_wf hv u) fun a => ?_
    change ((s.xupd u).xupd v).readTable a = ((s.xupd v).xupd u).readTable a
    rw [State.readTable_xupd_share hu, State.readTable_xupd_share hv, State.readTable_xupd_share h,
      State.readTable_xupd_share h, State.share_congr (s.xupd_k u), State.share_congr (s.xupd_k v)]
    ac_rfl
  exact congrArg (fun m => { s with table := m }) ht

/-- Rule R59: the order of application does not matter. -/
theorem State.foldl_xupd_perm {us vs : List Word} (p : us.Perm vs) {s : State} (h : Memory.wf s.table) :
    us.foldl State.xupd s = vs.foldl State.xupd s := by
  induction p generalizing s with
  | nil => rfl
  | cons u _ ih => exact ih (State.xupd_wf h u)
  | swap u v ws => exact congrArg (ws.foldl State.xupd) (State.xupd_comm h v u)
  | trans _ _ ih₁ ih₂ => exact (ih₁ h).trans (ih₂ h)

/-- Settles O43: the closed form by induction on the list, the order by induction on the permutation. -/
theorem xorUpdatesAreOrderIndependent : Obligations.XorUpdatesAreOrderIndependent := by
  intro s us h
  exact ⟨State.readTable_foldl_xupd us h, fun _ p => State.foldl_xupd_perm p h⟩

end Sys2Proof.Machine
end

section
/-! SUPPORT. The transition rule bit by bit, and the least period of the sequence (rules R90, R93). -/

namespace Sys2Proof.Machine

/-! ### The transition rule -/

/-- One bit of the result: the bit below it, and the three low bits with bit 63 folded in (rule R90). -/
theorem getLsbD_T (v : Word) {i : Nat} (hi : i < 64) :
    (T v).getLsbD i = ((decide (0 < i) && v.getLsbD (i - 1)) ^^ (decide (i < 3) && v.getLsbD 63)) := by
  have hfold : (if v.getLsbD 63 then POLY else 0#64).getLsbD i = (decide (i < 3) && v.getLsbD 63) := by
    cases v.getLsbD 63 <;> simp [getLsbD_POLY]
  rw [T, BitVec.getLsbD_xor, hfold, BitVec.getLsbD_shiftLeft]
  simp [hi, Nat.pos_iff_ne_zero]

/-- Settles O23: the formula is the definition of `T`, and each listed bit is an instance of the general one. -/
theorem transitionBitByBit : Obligations.TransitionBitByBit := by
  intro v
  refine ⟨rfl, T_bit_zero v, getLsbD_T v (by decide), getLsbD_T v (by decide), fun i h3 h63 => ?_⟩
  simp [getLsbD_T v (show i < 64 by omega), show 0 < i by omega, show ¬ i < 3 by omega]

/-! ### The least period -/

/-- A jump-ahead by a natural number below `2^63` answers the term so numbered (rule R106). -/
theorem Work.jumpAhead_ofNat (w : Work) {n : Nat} (hn : n < 2 ^ 63) :
    (w.jumpAhead (BitVec.ofNat 64 n)).2 = term n := by
  have hint : (BitVec.ofNat 64 n).toInt = n := by
    rw [BitVec.toInt_ofNat', Int.bmod_eq_of_le] <;> omega
  rw [Work.jumpAhead_value, hint, term_normInt]

/-- A period is the least one if no quotient of it by a prime divisor is a period. -/
theorem minimalPeriod_eq_of_prime_quotients {α : Type} {f : α → α} {x : α} {n : Nat}
    (hx : f^[n] x = x) (hd : ∀ p, p.Prime → p ∣ n → f^[n / p] x ≠ x) : Function.minimalPeriod f x = n := by
  obtain ⟨a, ha⟩ := Function.IsPeriodicPt.minimalPeriod_dvd hx
  suffices a = 1 by rw [ha, this, mul_one]
  by_contra hne
  have hmul : Function.minimalPeriod f x * a.minFac ∣ n := ha ▸ mul_dvd_mul_left _ a.minFac_dvd
  refine hd a.minFac (Nat.minFac_prime hne) (dvd_of_mul_left_dvd hmul) ?_
  exact Function.isPeriodicPt_iff_minimalPeriod_dvd.2 (Nat.dvd_div_of_mul_dvd (mul_comm _ a.minFac ▸ hmul))

/-- The prime factors of `PERIOD` (rule R93). -/
def periodPrimes : List Nat := [7, 73, 127, 337, 92737, 649657]

theorem prod_periodPrimes : periodPrimes.prod = PERIOD := by decide

theorem prime_of_mem_periodPrimes {p : Nat} (hp : p ∈ periodPrimes) : p.Prime := by
  simp only [periodPrimes, List.mem_cons, List.not_mem_nil, or_false] at hp
  rcases hp with rfl | rfl | rfl | rfl | rfl | rfl <;> norm_num

/-- `PERIOD` has no prime divisor but the six listed. -/
theorem mem_periodPrimes_of_dvd {p : Nat} (hp : p.Prime) (h : p ∣ PERIOD) : p ∈ periodPrimes :=
  mem_list_primes_of_dvd_prod hp.prime (fun _ hq => (prime_of_mem_periodPrimes hq).prime) (prod_periodPrimes ▸ h)

/-- The terms at the quotients of `PERIOD` by its primes, computed by the block's own jump-ahead. -/
theorem jumpAhead_PERIOD_div_ne_one :
    ∀ p ∈ periodPrimes, (Work.reset.jumpAhead (BitVec.ofNat 64 (PERIOD / p))).2 ≠ 1#64 := by
  decide +kernel

theorem term_PERIOD_div_ne_one {p : Nat} (hp : p ∈ periodPrimes) : term (PERIOD / p) ≠ 1#64 := by
  have hlt : PERIOD / p < 2 ^ 63 := (Nat.div_le_self _ _).trans_lt (by decide)
  rw [← Work.jumpAhead_ofNat Work.reset hlt]
  exact jumpAhead_PERIOD_div_ne_one p hp

/-- The sequence from state 1 has least period `PERIOD` (rule R93). -/
theorem minimalPeriod_T_one : Function.minimalPeriod T 1#64 = PERIOD :=
  minimalPeriod_eq_of_prime_quotients term_PERIOD fun _ hp h => term_PERIOD_div_ne_one (mem_periodPrimes_of_dvd hp h)

/-- Settles O26: `PERIOD` is a period, and no quotient of it by one of its six primes is. -/
theorem sequenceHasExactPeriod : Obligations.SequenceHasExactPeriod := by
  refine ⟨rfl, by decide, prod_periodPrimes.symm, fun p hp => ⟨prime_of_mem_periodPrimes hp, term_PERIOD_div_ne_one hp⟩,
    fun n => ?_, term_PERIOD, fun m hpos hlt => ?_, fun w => ?_⟩
  · exact (term_add n PERIOD).trans (congrArg _ term_PERIOD)
  · exact Function.not_isPeriodicPt_of_pos_of_lt_minimalPeriod hpos.ne' (hlt.trans_eq minimalPeriod_T_one.symm)
  · rw [w.jumpAhead_ofNat (by decide), w.jumpAhead_ofNat (by decide), term_PERIOD, term_zero]

end Sys2Proof.Machine
end

section
/-! SUPPORT. The top bit as a logarithm, and jump-ahead operands a period apart (rules R104, R109). -/

namespace Sys2Proof.Machine

/-! ### The top bit -/

/-- The search of MSB is the binary logarithm (rule R104). -/
theorem topBit_eq_log2 {v : Word} (hv : v ≠ 0#64) : topBit v 63 = v.toNat.log2 := by
  have h := topBit_spec hv (BitVec.isLt v)
  have hne : v.toNat ≠ 0 := fun h0 => hv (BitVec.eq_of_toNat_eq h0)
  rw [Nat.shiftRight_eq_div_pow, Nat.div_eq_iff (by positivity)] at h
  refine ((Nat.log2_eq_iff hne).2 ⟨by omega, ?_⟩).symm
  rw [pow_succ]
  omega

/-- Settles O30: `JI` is the binary logarithm of `JN`, and `PERIOD` is below `2^61`. -/
theorem msbFindsTopBit : Obligations.MsbFindsTopBit := by
  intro w hv hle
  have hne : w.jn.toNat ≠ 0 := fun h0 => hv (BitVec.eq_of_toNat_eq h0)
  rw [Work.msb_ji, topBit_eq_log2 hv]
  refine ⟨Nat.testBit_log2 hne, fun i hi => ?_, ?_⟩
  · exact Nat.testBit_lt_two_pow ((Nat.log2_lt hne).1 hi)
  · exact Nat.le_of_lt_succ ((Nat.log2_lt hne).2 (hle.trans_lt (by decide)))

/-! ### Operands a period apart -/

/-- NORM leaves `PERIOD` alone, its range being closed at both ends (rule R100). -/
theorem Work.norm_periodWord (w : Work) : (w.norm periodWord).jn = periodWord := by
  refine BitVec.eq_of_toInt_eq ?_
  rw [Work.norm_toInt, periodWord_toInt]
  decide

/-- Operands that agree modulo the period normalise to numbers of one term (rules R93, R100). -/
theorem term_normInt_congr {x y : Int} (h : x % (PERIOD : Int) = y % (PERIOD : Int)) :
    term (normInt x).toNat = term (normInt y).toNat := by
  refine term_congr ?_
  obtain ⟨hx, -⟩ := normInt_range x
  obtain ⟨hy, -⟩ := normInt_range y
  have hmod : normInt x % (PERIOD : Int) = normInt y % (PERIOD : Int) := by
    rw [normInt_emod, h, normInt_emod]
  have hnat := congrArg Int.toNat hmod
  rwa [Int.toNat_emod hx (by positivity), Int.toNat_emod hy (by positivity), Int.toNat_natCast] at hnat

/-- The sum with `PERIOD` is exact where it is still an `s64` (rule R109). -/
theorem toInt_add_periodWord {n : Word} (h : n.toInt + (PERIOD : Int) < 2 ^ 63) :
    (n + periodWord).toInt = n.toInt + (PERIOD : Int) := by
  have hlo := BitVec.le_toInt n
  rw [PERIOD_eq] at h
  rw [BitVec.toInt_add, periodWord_toInt, PERIOD_eq, Int.bmod_eq_of_le] <;> omega

/-- Jump-ahead answers the same a period further on (rule R109). -/
theorem Work.jumpAhead_add_periodWord (w : Work) {n : Word} (h : n.toInt + (PERIOD : Int) < 2 ^ 63) :
    (w.jumpAhead (n + periodWord)).2 = (w.jumpAhead n).2 := by
  rw [Work.jumpAhead_value, Work.jumpAhead_value, toInt_add_periodWord h]
  exact term_normInt_congr (Int.add_emod_right _ _)

/-- Settles O33: the sequence has period `PERIOD`, and NORM keeps an operand's residue modulo `PERIOD`. -/
theorem startsIsPeriodic : Obligations.StartsIsPeriodic := by
  intro w
  refine ⟨w.jumpAhead_ofNat (by decide), ?_, w.norm_periodWord, fun n h => w.jumpAhead_add_periodWord h⟩
  rw [w.jumpAhead_ofNat (by decide), w.jumpAhead_ofNat (by decide), term_PERIOD, term_zero]

end Sys2Proof.Machine
end

section
/-! SUPPORT. Command words the spec prints (rules R73 to R78). -/

namespace Sys2Proof

/-- The check of the reserved bits passes a command none of whose reserved bits is set (rule R77). -/
theorem checkReserved_of_and_eq_zero {f : Format} {arg : Word} (h : arg &&& f.reserved = 0#64) (i : Instr) :
    checkReserved f arg i = .command i := if_pos h

/-- Settles O4: the opcode of each word selects the format named here, whose reserved bits are clear in the word, and
its operand bits read as the operand printed. -/
theorem sampleWordsDecode : Obligations.SampleWordsDecode := by
  refine ⟨?nop, ?cfg, ?rds, ?starts, ?step, ?txor, ?trd, ?verify⟩
  case nop => exact checkReserved_of_and_eq_zero (f := .Z) (by decide) _
  case cfg => exact checkReserved_of_and_eq_zero (f := .K) (arg := 10#64) (by decide) _
  case rds => exact checkReserved_of_and_eq_zero (f := .S) (arg := 3#64) (by decide) _
  case starts => exact checkReserved_of_and_eq_zero (f := .N) BitVec.and_zero _
  case step => exact checkReserved_of_and_eq_zero (f := .J) (arg := 127#64) (by decide) _
  case txor => exact checkReserved_of_and_eq_zero (f := .V) BitVec.and_zero _
  case trd => exact checkReserved_of_and_eq_zero (f := .I) (arg := 0x0FFFFFFFFFFFFFFF#64) (by decide) _
  case verify => exact checkReserved_of_and_eq_zero (f := .Z) (by decide) _

end Sys2Proof
end

section
/-! SUPPORT. What the decoder makes of each word: the reserved bits as a bound on `arg`, and the command the opcode
selects with its operand (rules R73 to R78, R86). -/

namespace Sys2Proof

open Machine

/-! ### Reserved bits -/

/-- A mask of the bits from `n` up misses exactly the words below `2^n`. -/
theorem and_highMask_eq_zero_iff {n : Nat} {m : Word} (hm : ∀ i, i < 64 → m.getLsbD i = decide (n ≤ i)) (a : Word) :
    a &&& m = 0#64 ↔ a.toNat < 2 ^ n := by
  constructor
  · intro h
    refine Nat.lt_pow_two_of_testBit _ fun i hi => ?_
    rw [BitVec.testBit_toNat]
    by_cases h64 : i < 64
    · have hbit := congrArg (BitVec.getLsbD · i) h
      simpa [hm i h64, hi] using hbit
    · exact BitVec.getLsbD_of_ge a i (by omega)
  · intro h
    have hlow : ∀ i, i < n → m.getLsbD i = false := fun i hi => by
      by_cases h64 : i < 64
      · rw [hm i h64, decide_eq_false (by omega)]
      · exact BitVec.getLsbD_of_ge m i (by omega)
    have hand := and_high_eq_zero h m hlow
    rwa [BitVec.ofNat_toNat, BitVec.setWidth_eq] at hand

/-- How many low bits of `arg` a format gives its operand (rule R73). -/
def Format.width : Format → Nat
  | .Z => 0
  | .K => 6
  | .S => 4
  | .N => 64
  | .J => 7
  | .V => 64
  | .I => 60

theorem Format.getLsbD_reserved (f : Format) : ∀ i, i < 64 → f.reserved.getLsbD i = decide (f.width ≤ i) := by
  cases f <;> decide

theorem opcode_lt (i : Instr) : i.opcode.toNat < 0xD := by
  cases i <;> simp [Instr.opcode]

theorem operandBits_opcode (i : Instr) : operandBits i.opcode.toNat = i.format.width := by
  cases i <;> rfl

/-- The bits a command's format reserves are those above its operand (rules R73, R75, R77). -/
theorem and_reserved_eq_zero_iff (i : Instr) (a : Word) :
    a &&& i.format.reserved = 0#64 ↔ a.toNat < 2 ^ operandBits i.opcode.toNat := by
  rw [operandBits_opcode]
  exact and_highMask_eq_zero_iff i.format.getLsbD_reserved a

/-! ### The decoder by opcode -/

/-- A field of `n` bits read from an `arg` that fits it is the whole of `arg` (rule R74). -/
theorem toNat_extractLsb'_of_lt {a : Word} {n : Nat} (h : a.toNat < 2 ^ n) : (a.extractLsb' 0 n).toNat = a.toNat := by
  rw [BitVec.extractLsb'_toNat, Nat.shiftRight_zero, Nat.mod_eq_of_lt h]

/-- `i` is the command the opcode of `w` selects: `w` decodes to `i` unless a reserved bit of its format is set, and
where none is, the operand of `i` is the whole of `arg` (rules R74, R75, R77). -/
structure Selects (w : BitVec 68) (i : Instr) : Prop where
  opField_eq : opField w = i.opcode
  decode_eq : decode w = checkReserved i.format (argField w) i
  operand : (argField w).toNat < 2 ^ i.format.width → i.wellFormed = true ∧ argField w = i.arg

/-- Every assigned opcode selects a command (rules R75, R76). -/
theorem exists_selects {w : BitVec 68} (h : (opField w).toNat < 0xD) : ∃ i, Selects w i := by
  have word {n : Nat} (h : (argField w).toNat < 2 ^ n) :
      argField w = BitVec.ofNat 64 ((argField w).extractLsb' 0 n).toNat := by
    rw [toNat_extractLsb'_of_lt h, BitVec.ofNat_toNat, BitVec.setWidth_eq]
  have plain (h : (argField w).toNat < 2 ^ 0) : argField w = 0#64 :=
    BitVec.eq_of_toNat_eq (by simpa using h)
  have stream (h : (argField w).toNat < 2 ^ 7) : argField w = ((argField w).extractLsb' 0 7).setWidth 64 := by
    rw [← BitVec.ofNat_toNat]; exact word h
  have fits (n : Nat) : decide (((argField w).extractLsb' 0 n).toNat < 2 ^ n) = true := decide_eq_true (BitVec.isLt _)
  have hdec := decode.eq_def w
  interval_cases hop : (opField w).toNat
  · exact ⟨.nop, BitVec.eq_of_toNat_eq hop, hdec, fun h => ⟨rfl, plain h⟩⟩
  · exact ⟨.cfg _, BitVec.eq_of_toNat_eq hop, hdec, fun h => ⟨fits 6, word h⟩⟩
  · exact ⟨.rds _, BitVec.eq_of_toNat_eq hop, hdec, fun h => ⟨fits 4, word h⟩⟩
  · exact ⟨.starts _, BitVec.eq_of_toNat_eq hop, hdec, fun _ => ⟨rfl, rfl⟩⟩
  · exact ⟨.step _, BitVec.eq_of_toNat_eq hop, hdec, fun h => ⟨rfl, stream h⟩⟩
  · exact ⟨.tinit, BitVec.eq_of_toNat_eq hop, hdec, fun h => ⟨rfl, plain h⟩⟩
  · exact ⟨.txor _, BitVec.eq_of_toNat_eq hop, hdec, fun _ => ⟨rfl, rfl⟩⟩
  · exact ⟨.trd _, BitVec.eq_of_toNat_eq hop, hdec, fun h => ⟨fits 60, word h⟩⟩
  · exact ⟨.seed, BitVec.eq_of_toNat_eq hop, hdec, fun h => ⟨rfl, plain h⟩⟩
  · exact ⟨.upd _, BitVec.eq_of_toNat_eq hop, hdec, fun h => ⟨rfl, stream h⟩⟩
  · exact ⟨.run, BitVec.eq_of_toNat_eq hop, hdec, fun h => ⟨rfl, plain h⟩⟩
  · exact ⟨.rdr _, BitVec.eq_of_toNat_eq hop, hdec, fun h => ⟨rfl, stream h⟩⟩
  · exact ⟨.verify, BitVec.eq_of_toNat_eq hop, hdec, fun h => ⟨rfl, plain h⟩⟩

/-- A reserved opcode is refused whatever its `arg` (rule R76). -/
theorem decode_of_reserved_opcode {w : BitVec 68} (h : 0xD ≤ (opField w).toNat) : decode w = .error .illegalOp := by
  have hlt : (opField w).toNat < 16 := (opField w).isLt
  have hdec := decode.eq_def w
  interval_cases hop : (opField w).toNat <;> exact hdec

/-- An assigned opcode with a bit of `arg` above its operand is refused, whatever the operand (rule R77). -/
theorem decode_of_reserved_bits {w : BitVec 68} (h : (opField w).toNat < 0xD)
    (ha : 2 ^ operandBits (opField w).toNat ≤ (argField w).toNat) : decode w = .error .reservedBits := by
  obtain ⟨i, hi⟩ := exists_selects h
  rw [hi.opField_eq] at ha
  rw [hi.decode_eq]
  exact if_neg fun h0 => absurd ((and_reserved_eq_zero_iff i _).1 h0) (by omega)

/-- An assigned opcode whose operand fits its field is the command with those two fields (rules R74, R75). -/
theorem decode_of_assigned {w : BitVec 68} (h : (opField w).toNat < 0xD)
    (ha : (argField w).toNat < 2 ^ operandBits (opField w).toNat) :
    ∃ i : Instr, decode w = .command i ∧ i.wellFormed = true ∧ opField w = i.opcode ∧ argField w = i.arg := by
  obtain ⟨i, hi⟩ := exists_selects h
  rw [hi.opField_eq] at ha
  obtain ⟨hw, harg⟩ := hi.operand (operandBits_opcode i ▸ ha)
  exact ⟨i, hi.decode_eq.trans (checkReserved_of_and_eq_zero ((and_reserved_eq_zero_iff i _).2 ha) i), hw,
    hi.opField_eq, harg⟩

/-! ### The rows of the opcode table -/

/-- Each row is that of a command: its opcode, and the bits its format reserves (rules R75, R86). -/
theorem exists_instr_of_mem_opcodeRows {r : BitVec 68 × BitVec 68} (hr : r ∈ opcodeRows) :
    ∃ i : Instr, r = (i.opcode ++ 0#64, 0#4 ++ i.format.reserved) := by
  simp only [opcodeRows, List.mem_cons, List.not_mem_nil, or_false] at hr
  rcases hr with rfl | rfl | rfl | rfl | rfl | rfl | rfl | rfl | rfl | rfl | rfl | rfl | rfl
  exacts [⟨.nop, rfl⟩, ⟨.cfg 0, rfl⟩, ⟨.rds 0, rfl⟩, ⟨.starts 0, rfl⟩, ⟨.step 0, rfl⟩, ⟨.tinit, rfl⟩, ⟨.txor 0, rfl⟩,
    ⟨.trd 0, rfl⟩, ⟨.seed, rfl⟩, ⟨.upd 0, rfl⟩, ⟨.run, rfl⟩, ⟨.rdr 0, rfl⟩, ⟨.verify, rfl⟩]

/-- A mask given by its two parts selects from each field (rule R72). -/
theorem and_append_fields (w : BitVec 68) (o : BitVec 4) (a : Word) :
    w &&& (o ++ a : BitVec 68) = (opField w &&& o) ++ (argField w &&& a) := by
  conv_lhs => rw [← append_fields w]
  exact BitVec.and_append

/-- The bits a row selects by are the opcode's (rules R72, R86). -/
theorem opField_and_opcodeMask (w : BitVec 68) : opField (w &&& opcodeMask) = opField w := by
  have hmask : opcodeMask = BitVec.allOnes 4 ++ 0#64 := by decide
  rw [hmask, and_append_fields, opField_append, BitVec.and_allOnes]

/-- A word that a row selects and that has a bit set which the row reserves is refused (rules R77, R86). -/
theorem decode_of_mem_opcodeRows {w : BitVec 68} {r : BitVec 68 × BitVec 68} (hr : r ∈ opcodeRows)
    (hop : w &&& opcodeMask = r.1) (hres : w &&& r.2 ≠ 0#68) : decode w = .error .reservedBits := by
  obtain ⟨i, rfl⟩ := exists_instr_of_mem_opcodeRows hr
  have hi : opField w = i.opcode := by rw [← opField_and_opcodeMask, hop, opField_append]
  refine decode_of_reserved_bits (hi ▸ opcode_lt i) (not_lt.1 fun ha => hres ?_)
  rw [and_append_fields, (and_reserved_eq_zero_iff i _).2 (hi ▸ ha), BitVec.and_zero]
  rfl

end Sys2Proof
end

section
/-! SUPPORT. The checks of a command word in the order of rule R78, and what the block answers to their outcome (rules
R191 to R202). -/

namespace Sys2Proof.Machine

/-! ### The check that fails -/

/-- The first check that `i` fails, none if it passes all (rules R195 to R199, R202). -/
def State.failingCheck (s : State) : Instr → Option Cause
  | .nop => none
  | .cfg k => if k < K_MIN ∨ s.params.kMax < k then some .allocFail else none
  | .rds c => if 4 < c then some .badCsr else none
  | .starts _ => none
  | .step _ => if s.svalid then none else some .streamsNotInit
  | .tinit => none
  | .txor _ => if s.tvalid then none else some .tableNotInit
  | .trd a => if s.tvalid then (if s.tableSize ≤ a then some .indexRange else none) else some .tableNotInit
  | .seed => none
  | .upd _ => if s.tvalid then (if s.svalid then none else some .streamsNotInit) else some .tableNotInit
  | .run => if s.tvalid then none else some .tableNotInit
  | .rdr _ => if s.svalid then none else some .streamsNotInit
  | .verify => if s.tvalid then none else some .tableNotInit

/-- The first check that the command word `w` fails: the decoder's, then those of the command (rule R78). -/
def State.failingWordCheck (s : State) (w : BitVec 68) : Option Cause :=
  match decode w with
  | .command i => s.failingCheck i
  | .error e => some (decodeCause e)

/-- What the block answers to a check: a failed one is taken as the fault, and with none the command completes without
one (rule R200). -/
inductive State.Answers (s : State) : Option Cause → Host.Outcome State Fault Refusal → Prop
  | raised {x : Cause} {o : Host.Outcome State Fault Refusal} (h : o = .next (s.raise x)) : s.Answers (some x) o
  | completed {t : State} {o : Host.Outcome State Fault Refusal} (h : o = .next t) (hf : t.fault = false) :
      s.Answers none o

/-! ### `FAULT` through the long operations -/

@[simp] theorem State.seedAll_fault (s : State) : s.seedAll.fault = s.fault := by
  rw [s.seedAll_frame.1]

@[simp] theorem State.updateRounds_fault (s : State) : s.updateRounds.fault = s.fault := by
  rw [s.updateRounds_frame]

@[simp] theorem State.replay_fault (s : State) : s.replay.fault = s.fault := by
  rw [s.replay_frame]

@[simp] theorem State.countErrors_fault (s : State) : s.countErrors.fault = s.fault := by
  rw [s.countErrors_frame]

/-- There are five status registers (rules R32, R196). -/
theorem State.readCsr_eq_none_iff (s : State) (c : Nat) : s.readCsr c = none ↔ 4 < c := by
  rcases c with _ | _ | _ | _ | _ | c <;> simp [State.readCsr]

/-! ### Commands and words -/

/-- Every command answers to the first check it fails (rules R78, R199). -/
theorem exec_answers {s : State} (h : s.fault = false) (i : Instr) : s.Answers (s.failingCheck i) (exec i s) := by
  cases i with
  | nop => exact .completed (exec_nop h) h
  | cfg k =>
    rw [State.failingCheck]
    split
    · exact .raised (exec_cfg_raise h ‹_›)
    · exact .completed (exec_cfg h (by omega) (by omega)) h
  | rds c =>
    rw [State.failingCheck]
    split
    · exact .raised (exec_rds_raise h ((s.readCsr_eq_none_iff c).2 ‹_›))
    · obtain ⟨v, hv⟩ := Option.ne_none_iff_exists'.1 (mt (s.readCsr_eq_none_iff c).1 ‹_›)
      exact .completed (exec_rds h hv) h
  | starts n => exact .completed (exec_starts h n) (by simpa using h)
  | step j =>
    cases hs : s.svalid <;> simp only [State.failingCheck, hs]
    · exact .raised (exec_streamsNotInit h hs (.inl ⟨j, rfl⟩))
    · exact .completed (exec_step h hs j) h
  | tinit => exact .completed (exec_tinit h) h
  | txor v =>
    cases ht : s.tvalid <;> simp only [State.failingCheck, ht]
    · exact .raised (exec_tableNotInit h ht (.inl ⟨v, rfl⟩))
    · exact .completed (exec_txor h ht v) h
  | trd a =>
    cases ht : s.tvalid <;> simp only [State.failingCheck, ht]
    · exact .raised (exec_tableNotInit h ht (.inr (.inl ⟨a, rfl⟩)))
    · by_cases ha : s.tableSize ≤ a <;> simp only [ha]
      · exact .raised (exec_trd_raise h ht ha)
      · exact .completed (exec_trd h ht (by omega)) h
  | seed => exact .completed (exec_seed h) (by simpa using h)
  | upd j =>
    cases ht : s.tvalid <;> simp only [State.failingCheck, ht]
    · exact .raised (exec_tableNotInit h ht (.inr (.inr (.inl ⟨j, rfl⟩))))
    · cases hs : s.svalid
      · exact .raised (exec_upd_raise h ht hs j)
      · exact .completed (exec_upd h ht hs j) h
  | run =>
    cases ht : s.tvalid <;> simp only [State.failingCheck, ht]
    · exact .raised (exec_tableNotInit h ht (.inr (.inr (.inr (.inl rfl)))))
    · exact .completed (exec_run h ht) (by simpa using h)
  | rdr j =>
    cases hs : s.svalid <;> simp only [State.failingCheck, hs]
    · exact .raised (exec_streamsNotInit h hs (.inr ⟨j, rfl⟩))
    · exact .completed (exec_rdr h hs j) h
  | verify =>
    cases ht : s.tvalid <;> simp only [State.failingCheck, ht]
    · exact .raised (exec_tableNotInit h ht (.inr (.inr (.inr (.inr rfl)))))
    · exact .completed (exec_verify h ht) (by simpa using h)

/-- Every word answers to the first check it fails (rule R78). -/
theorem acceptWord_answers {s : State} (h : s.fault = false) (w : BitVec 68) :
    s.Answers (s.failingWordCheck w) (acceptWord w s) := by
  unfold State.failingWordCheck acceptWord
  cases decode w with
  | command i => exact exec_answers h i
  | error e => exact .raised (State.command_ok h _)

/-! ### The code of the first failing check -/

/-- The code of an optional cause, zero for none (rule R191). -/
@[simp] def faultCode : Option Cause → Nat
  | none => 0
  | some x => x.code.toNat

/-- The spec's chain of checks on the two fields of a command, as the check the command fails (rules R191, R199). -/
theorem State.firstFault_opcode_arg (s : State) {i : Instr} (hw : i.wellFormed = true)
    (ha : i.arg.toNat < 2 ^ operandBits i.opcode.toNat) :
    s.firstFault i.opcode.toNat i.arg.toNat = faultCode (s.failingCheck i) := by
  have hop := opcode_lt i
  rw [State.firstFault, if_neg (by omega), if_neg (by omega)]
  clear ha hop
  have hnat {k n : Nat} (hk : decide (k < n) = true) (hn : n ≤ 2 ^ 64) : (BitVec.ofNat 64 k).toNat = k := by
    rw [BitVec.toNat_ofNat, Nat.mod_eq_of_lt ((of_decide_eq_true hk).trans_le hn)]
  cases i with
  | nop => rfl
  | cfg k =>
    by_cases hk : k < 7 ∨ s.params.kMax < k <;>
      simp [Instr.opcode, Instr.arg, State.failingCheck, hnat hw, K_MIN, hk, Cause.code]
  | rds c =>
    by_cases hc : 4 < c <;> simp [Instr.opcode, Instr.arg, State.failingCheck, hnat hw, hc, Cause.code]
  | starts n => rfl
  | step j => cases hs : s.svalid <;> simp [Instr.opcode, State.failingCheck, hs, Cause.code]
  | tinit => rfl
  | txor v => cases ht : s.tvalid <;> simp [Instr.opcode, State.failingCheck, ht, Cause.code]
  | trd a =>
    cases ht : s.tvalid
    · simp [Instr.opcode, State.failingCheck, ht, Cause.code]
    · by_cases ha : 2 ^ s.k.toNat ≤ a <;>
        simp [Instr.opcode, Instr.arg, State.failingCheck, hnat hw, ht, State.tableSize, ha, Cause.code]
  | seed => rfl
  | upd j =>
    cases ht : s.tvalid <;> cases hs : s.svalid <;>
      simp [Instr.opcode, State.failingCheck, ht, hs, Cause.code]
  | run => cases ht : s.tvalid <;> simp [Instr.opcode, State.failingCheck, ht, Cause.code]
  | rdr j => cases hs : s.svalid <;> simp [Instr.opcode, State.failingCheck, hs, Cause.code]
  | verify => cases ht : s.tvalid <;> simp [Instr.opcode, State.failingCheck, ht, Cause.code]

/-- The spec's chain of checks on the two fields of a word gives the code of the check the word fails (rule R199). -/
theorem State.firstFault_eq_faultCode (s : State) (w : BitVec 68) :
    s.firstFault (opField w).toNat (argField w).toNat = faultCode (s.failingWordCheck w) := by
  unfold State.failingWordCheck
  by_cases hop : 0xD ≤ (opField w).toNat
  · rw [decode_of_reserved_opcode hop, State.firstFault, if_pos hop]
    rfl
  by_cases ha : 2 ^ operandBits (opField w).toNat ≤ (argField w).toNat
  · rw [decode_of_reserved_bits (not_le.1 hop) ha, State.firstFault, if_neg hop, if_pos ha]
    rfl
  · obtain ⟨i, hdec, hw, hopi, hargi⟩ := decode_of_assigned (not_le.1 hop) (not_le.1 ha)
    rw [hopi, hargi] at ha ⊢
    rw [hdec, s.firstFault_opcode_arg hw (not_le.1 ha)]

end Sys2Proof.Machine
end

section
/-! SUPPORT. The statements on faults: which are taken, what one changes, and the faulted block (rules R191 to R204). -/

namespace Sys2Proof.Machine

/-! ### Steps on a command word -/

/-- Fault entry, with the fields it writes (rule R200). -/
theorem State.raise_eq (s : State) (x : Cause) :
    s.raise x = { s with fault := true, cause := x.code,
                         responses := s.responses ++ [responseWord true (x.code.setWidth 64)] } := rfl

/-- One step takes the oldest input (rule R70). -/
theorem step_input {s : State} {x : Input} {rest : List Input} (h : s.inputs = x :: rest) :
    step s = acceptInput x { s with inputs := rest } := by
  rw [step, serve, h]

/-- A step on a command word answers to the first check the word fails (rule R78). -/
theorem step_answers {s : State} {w : BitVec 68} {rest : List Input} (hf : s.fault = false)
    (hin : s.inputs = .command w :: rest) :
    { s with inputs := rest }.Answers (s.failingWordCheck w) (step s) := by
  have h := acceptWord_answers (s := { s with inputs := rest }) hf w
  rwa [← show step s = acceptWord w { s with inputs := rest } from step_input hin] at h

/-- A word that fails a check raises its cause (rule R200). -/
theorem step_raise {s : State} {w : BitVec 68} {rest : List Input} {x : Cause} (hf : s.fault = false)
    (hin : s.inputs = .command w :: rest) (hx : s.failingWordCheck w = some x) :
    step s = .next ({ s with inputs := rest }.raise x) := by
  have h := step_answers hf hin
  rw [hx] at h
  cases h with
  | raised h => exact h

/-- Every word is refused in the faulted state, one that is no command too (rule R201). -/
theorem acceptWord_faulted {s : State} (h : s.fault = true) (w : BitVec 68) :
    acceptWord w s = .next s.refuseFaulted := by
  unfold acceptWord
  cases decode w with
  | command i => exact exec_faulted h i
  | error e => exact State.command_faulted h _

theorem step_faulted {s : State} {w : BitVec 68} {rest : List Input} (hf : s.fault = true)
    (hin : s.inputs = .command w :: rest) : step s = .next { s with inputs := rest }.refuseFaulted :=
  (step_input hin).trans (acceptWord_faulted (s := { s with inputs := rest }) hf w)

/-- Both kinds of reset leave the same state (rules R220, R221). -/
theorem acceptInput_reset {x : Input} (h : ∀ w, x ≠ .command w) (s : State) : acceptInput x s = .next s.hardReset := by
  cases x with
  | command w => exact absurd rfl (h w)
  | reset => rfl
  | resetDuring w => rfl

/-! ### Faults taken -/

theorem Cause.code_ne_zero (x : Cause) : x.code.toNat ≠ 0 := by
  cases x <;> decide

/-- Settles O11: the chain of checks names the check the word fails, to which the step answers. -/
theorem firstFailingCheckRaises : Obligations.FirstFailingCheckRaises := by
  intro s w rest hf hin
  have hans := step_answers hf hin
  rw [s.firstFault_eq_faultCode w]
  generalize s.failingWordCheck w = check at hans
  cases hans with
  | @raised x _ h =>
    refine ⟨fun h0 => absurd h0 x.code_ne_zero, ?_⟩
    rintro c rfl -
    rw [h, State.raise_eq, faultCode, BitVec.ofNat_toNat, BitVec.ofNat_toNat, BitVec.setWidth_eq]
  | completed h ht => exact ⟨fun _ => ⟨_, h, ht⟩, fun c hc h0 => absurd hc.symm h0⟩

/-- Settles O12: the decoder refuses both kinds of word, and its refusal is the first check. -/
theorem malformedWordsRaise : Obligations.MalformedWordsRaise := by
  intro s w rest hf hin
  have raises {e : DecodeError} (he : decode w = .error e) :
      step s = .next ({ s with inputs := rest }.raise (decodeCause e)) :=
    step_raise hf hin (by rw [State.failingWordCheck, he])
  exact ⟨fun hop => raises (decode_of_reserved_opcode hop),
    fun r hr hop hres => raises (decode_of_mem_opcodeRows hr hop hres)⟩

/-- Settles O13: of the two answers to a check only fault entry leaves `FAULT` set. -/
theorem faultEntryIsPrecise : Obligations.FaultEntryIsPrecise := by
  intro s t w rest hf hin hstep hfault
  have hans := step_answers hf hin
  generalize s.failingWordCheck w = check at hans
  rw [hstep] at hans
  cases hans with
  | raised h => exact ⟨_, Host.Outcome.next.inj h⟩
  | completed h ht => rw [← Host.Outcome.next.inj h, hfault] at ht; contradiction

/-- Settles O20: `CFG` fails its range check, and the faulted state refuses every command. -/
theorem cfgOutOfRangeIsTerminal : Obligations.CfgOutOfRangeIsTerminal := by
  intro s k hf hk
  exact ⟨s.raise .allocFail, exec_cfg_raise hf hk, s.raise_eq _, fun i => exec_faulted rfl i⟩

/-- Settles O22: none of these numbers names a register. -/
theorem rdsUnassignedNumberRaises : Obligations.RdsUnassignedNumberRaises := by
  intro s c hf h5 _
  exact exec_rds_raise hf ((s.readCsr_eq_none_iff c).2 h5)

/-- Settles O29: the stream check is the only one of `STEP` and `RDR`, and the second of `UPD`. -/
theorem streamReadersNeedSeededStreams : Obligations.StreamReadersNeedSeededStreams := by
  intro s j hf hs
  exact ⟨exec_streamsNotInit hf hs (.inl ⟨j, rfl⟩), exec_streamsNotInit hf hs (.inr ⟨j, rfl⟩),
    fun ht => exec_upd_raise hf ht hs j⟩

/-- Settles O40: only `TRD` checks an index; the long operations of the others leave `FAULT` alone. -/
theorem onlyDirectIndexCanBeOutOfRange : Obligations.OnlyDirectIndexCanBeOutOfRange := by
  intro s hf ht
  refine ⟨fun i hi => exec_trd_raise hf ht hi, fun v => ⟨_, exec_txor hf ht v, hf⟩,
    fun j hs => ⟨_, exec_upd hf ht hs j, hf⟩, ⟨_, exec_run hf ht, ?run⟩, ⟨_, exec_verify hf ht, ?verify⟩⟩
  case run => simpa using hf
  case verify => simpa using hf

/-- Settles O41: the table check comes before every other check of the five. -/
theorem tableReadersNeedInitialisedTable : Obligations.TableReadersNeedInitialisedTable := by
  intro s hf ht i hi
  exact exec_tableNotInit hf ht hi

/-! ### The faulted block -/

/-- Settles O14: a refusal delivers the first cause and writes nothing else. -/
theorem faultedBlockRefusesEveryCommand : Obligations.FaultedBlockRefusesEveryCommand := by
  intro s w rest hf hin
  exact step_faulted hf hin

/-- Settles O15: a command is refused, which keeps `FAULT`; any other input is a reset. -/
theorem onlyResetLeavesTheFaultedState : Obligations.OnlyResetLeavesTheFaultedState := by
  intro s t x rest hf hin hstep
  by_cases hx : ∀ w, x ≠ .command w
  · rw [step_input hin, acceptInput_reset hx] at hstep
    obtain rfl := Host.Outcome.next.inj hstep
    exact ⟨iff_of_true rfl hx, fun _ => ⟨rfl, rfl, rfl, rfl, rfl⟩⟩
  · obtain ⟨w, rfl⟩ : ∃ w, x = .command w := by simpa using hx
    obtain rfl := Host.Outcome.next.inj ((step_faulted hf hin).symm.trans hstep)
    have hfault : ¬ s.fault = false := by simp [hf]
    exact ⟨iff_of_false hfault hx, fun h => absurd h hfault⟩

end Sys2Proof.Machine
end

section
/-! SUPPORT. The decoder and the encoder are inverse to each other, and the rows of the opcode table (rules R72 to R77,
R86). -/

namespace Sys2Proof

open Machine

/-! ### A command read from its two fields -/

/-- The command with the opcode of `i` whose operand the decoder reads from `a` (rules R73, R74). -/
def Instr.withArg (a : Word) : Instr → Instr
  | .nop => .nop
  | .cfg _ => .cfg (a.extractLsb' 0 6).toNat
  | .rds _ => .rds (a.extractLsb' 0 4).toNat
  | .starts _ => .starts a
  | .step _ => .step (a.extractLsb' 0 7)
  | .tinit => .tinit
  | .txor _ => .txor a
  | .trd _ => .trd (a.extractLsb' 0 60).toNat
  | .seed => .seed
  | .upd _ => .upd (a.extractLsb' 0 7)
  | .run => .run
  | .rdr _ => .rdr (a.extractLsb' 0 7)
  | .verify => .verify

/-- The opcode alone selects the format and the operand read (rules R74, R75). -/
theorem decode_of_opField {w : BitVec 68} {i : Instr} (h : opField w = i.opcode) :
    decode w = checkReserved i.format (argField w) (i.withArg (argField w)) := by
  rw [decode.eq_def, h]
  cases i <;> rfl

/-- An operand that fits its field is read back whole (rule R73). -/
theorem Instr.withArg_arg {i : Instr} (h : i.wellFormed = true) : i.withArg i.arg = i := by
  have number {k n : Nat} (hk : decide (k < 2 ^ n) = true) (hn : n ≤ 64) :
      ((BitVec.ofNat 64 k).extractLsb' 0 n).toNat = k := by
    have hk := of_decide_eq_true hk
    have h64 : (BitVec.ofNat 64 k).toNat = k :=
      Nat.mod_eq_of_lt (hk.trans_le (Nat.pow_le_pow_right (by decide) hn))
    rw [toNat_extractLsb'_of_lt (by rwa [h64]), h64]
  have stream (j : BitVec 7) : (j.setWidth 64).extractLsb' 0 7 = j := by
    refine BitVec.eq_of_toNat_eq ?_
    rw [← BitVec.ofNat_toNat]
    exact number (decide_eq_true j.isLt) (by decide)
  cases i with
  | cfg k => exact congrArg Instr.cfg (number h (by decide))
  | rds c => exact congrArg Instr.rds (number h (by decide))
  | trd a => exact congrArg Instr.trd (number h (by decide))
  | step j => exact congrArg Instr.step (stream j)
  | upd j => exact congrArg Instr.upd (stream j)
  | rdr j => exact congrArg Instr.rdr (stream j)
  | _ => rfl

/-- The operand of a well-formed command leaves the reserved bits clear (rule R77). -/
theorem legalWord (i : Instr) : Laws.LegalWord.Statement i := by
  cases i with
  | nop => exact Laws.LegalWord.nop
  | cfg k => exact Laws.LegalWord.cfg k
  | rds c => exact Laws.LegalWord.rds c
  | starts n => exact Laws.LegalWord.starts n
  | step j => exact Laws.LegalWord.step j
  | tinit => exact Laws.LegalWord.tinit
  | txor v => exact Laws.LegalWord.txor v
  | trd a => exact Laws.LegalWord.trd a
  | seed => exact Laws.LegalWord.seed
  | upd j => exact Laws.LegalWord.upd j
  | run => exact Laws.LegalWord.run
  | rdr j => exact Laws.LegalWord.rdr j
  | verify => exact Laws.LegalWord.verify

/-- Settles O1: the opcode selects the command's own format, whose reserved bits are clear, and the operand is read
back whole. -/
theorem decodeReadsEncodedCommand : Obligations.DecodeReadsEncodedCommand := by
  intro i hw
  obtain ⟨hop, hres⟩ := legalWord i hw
  rw [decode_of_opField hop, checkReserved_of_and_eq_zero hres, argField_encode, Instr.withArg_arg hw]

/-! ### Words that decode -/

/-- A word that decodes has an assigned opcode and no bit above its operand (rules R76, R77). -/
theorem fields_of_decode {w : BitVec 68} {i : Instr} (h : decode w = .command i) :
    i.wellFormed = true ∧ opField w = i.opcode ∧ argField w = i.arg := by
  by_cases hop : (opField w).toNat < 0xD
  · by_cases harg : (argField w).toNat < 2 ^ operandBits (opField w).toNat
    · obtain ⟨j, hj, hfields⟩ := decode_of_assigned hop harg
      obtain rfl : j = i := Decoded.command.inj (hj.symm.trans h)
      exact hfields
    · rw [decode_of_reserved_bits hop (not_lt.1 harg)] at h
      contradiction
  · rw [decode_of_reserved_opcode (not_lt.1 hop)] at h
    contradiction

/-- Settles O2: the fields of a word that decodes are those of its command, and a word is its two fields. -/
theorem encodeRebuildsDecodedWord : Obligations.EncodeRebuildsDecodedWord := by
  intro w i h
  obtain ⟨hw, hop, harg⟩ := fields_of_decode h
  exact ⟨hw, by rw [encode, ← hop, ← harg, append_fields]⟩

/-! ### The rows of the opcode table -/

/-- The row of a command (rule R86). -/
theorem row_mem_opcodeRows (i : Instr) : (i.opcode ++ 0#64, 0#4 ++ i.format.reserved) ∈ opcodeRows := by
  cases i <;> simp only [Instr.opcode, Instr.format] <;> decide

theorem and_opcodeMask (w : BitVec 68) : w &&& opcodeMask = opField w ++ 0#64 := by
  have hmask : opcodeMask = BitVec.allOnes 4 ++ 0#64 := by decide
  rw [hmask, and_append_fields, BitVec.and_allOnes, BitVec.and_zero]

/-- A word that a row selects and that has no bit set which the row reserves is a command of the row (rule R86). -/
theorem decode_of_mem_opcodeRows_of_and_eq_zero {w : BitVec 68} {r : BitVec 68 × BitVec 68} (hr : r ∈ opcodeRows)
    (hop : w &&& opcodeMask = r.1) (hres : w &&& r.2 = 0#68) :
    ∃ i, decode w = .command i ∧ i.opcode = opField r.1 := by
  have hopr : opField r.1 = opField w := by rw [← hop, opField_and_opcodeMask]
  obtain ⟨j, rfl⟩ := exists_instr_of_mem_opcodeRows hr
  rw [opField_append] at hopr
  rw [and_append_fields] at hres
  have harg : argField w &&& j.format.reserved = 0#64 := by
    simpa [show argField 0#68 = 0#64 by decide] using congrArg argField hres
  rw [opField_append, hopr]
  obtain ⟨i, hi, -, hopi, -⟩ := decode_of_assigned (hopr ▸ opcode_lt j)
    (hopr ▸ (and_reserved_eq_zero_iff j _).1 harg)
  exact ⟨i, hi, hopi.symm⟩

/-- A word that no row selects has a reserved opcode (rules R76, R86). -/
theorem reserved_opcode_of_no_row {w : BitVec 68} (h : ∀ r ∈ opcodeRows, w &&& opcodeMask ≠ r.1) :
    0xD ≤ (opField w).toNat := by
  by_contra hlt
  obtain ⟨i, hi⟩ := exists_selects (not_le.1 hlt)
  exact h _ (row_mem_opcodeRows i) (by rw [and_opcodeMask, hi.opField_eq])

/-- Settles O3: each row is that of a command, and every assigned opcode has a row. -/
theorem opcodeTableRowsSelectWords : Obligations.OpcodeTableRowsSelectWords := by
  intro w
  refine ⟨fun r hr hop => ⟨?reserved, ?command⟩, fun h => ?noRow⟩
  case reserved => exact decode_of_mem_opcodeRows hr hop
  case command => exact decode_of_mem_opcodeRows_of_and_eq_zero hr hop
  case noRow => exact decode_of_reserved_opcode (reserved_opcode_of_no_row h)

end Sys2Proof
end

section
/-! SUPPORT. What the long operations leave alone, field by field, and the steps on each kind of input (rules R70, R71,
R220, R221). -/

namespace Sys2Proof.Machine

/-! ### Fields the long operations leave alone -/

@[simp] theorem State.seedAll_params (s : State) : s.seedAll.params = s.params := by rw [s.seedAll_frame.1]
@[simp] theorem State.seedAll_table (s : State) : s.seedAll.table = s.table := by rw [s.seedAll_frame.1]
@[simp] theorem State.seedAll_k (s : State) : s.seedAll.k = s.k := by rw [s.seedAll_frame.1]
@[simp] theorem State.seedAll_tvalid (s : State) : s.seedAll.tvalid = s.tvalid := by rw [s.seedAll_frame.1]
@[simp] theorem State.seedAll_svalid (s : State) : s.seedAll.svalid = true := by rw [s.seedAll_frame.1]
@[simp] theorem State.seedAll_vdone (s : State) : s.seedAll.vdone = s.vdone := by rw [s.seedAll_frame.1]
@[simp] theorem State.seedAll_pass (s : State) : s.seedAll.pass = s.pass := by rw [s.seedAll_frame.1]
@[simp] theorem State.seedAll_errcnt (s : State) : s.seedAll.errcnt = s.errcnt := by rw [s.seedAll_frame.1]
@[simp] theorem State.seedAll_inputs (s : State) : s.seedAll.inputs = s.inputs := by rw [s.seedAll_frame.1]
@[simp] theorem State.seedAll_responses (s : State) : s.seedAll.responses = s.responses := by rw [s.seedAll_frame.1]

@[simp] theorem State.updateRounds_params (s : State) : s.updateRounds.params = s.params := by rw [s.updateRounds_frame]
@[simp] theorem State.updateRounds_k (s : State) : s.updateRounds.k = s.k := by rw [s.updateRounds_frame]
@[simp] theorem State.updateRounds_tvalid (s : State) : s.updateRounds.tvalid = s.tvalid := by rw [s.updateRounds_frame]
@[simp] theorem State.updateRounds_svalid (s : State) : s.updateRounds.svalid = s.svalid := by rw [s.updateRounds_frame]
@[simp] theorem State.updateRounds_inputs (s : State) : s.updateRounds.inputs = s.inputs := by rw [s.updateRounds_frame]
@[simp] theorem State.updateRounds_responses (s : State) : s.updateRounds.responses = s.responses := by
  rw [s.updateRounds_frame]

@[simp] theorem State.replay_params (s : State) : s.replay.params = s.params := by rw [s.replay_frame]
@[simp] theorem State.replay_ran (s : State) : s.replay.ran = s.ran := by rw [s.replay_frame]
@[simp] theorem State.replay_k (s : State) : s.replay.k = s.k := by rw [s.replay_frame]
@[simp] theorem State.replay_tvalid (s : State) : s.replay.tvalid = s.tvalid := by rw [s.replay_frame]
@[simp] theorem State.replay_svalid (s : State) : s.replay.svalid = s.svalid := by rw [s.replay_frame]
@[simp] theorem State.replay_inputs (s : State) : s.replay.inputs = s.inputs := by rw [s.replay_frame]
@[simp] theorem State.replay_responses (s : State) : s.replay.responses = s.responses := by rw [s.replay_frame]

@[simp] theorem State.countErrors_params (s : State) : s.countErrors.params = s.params := by rw [s.countErrors_frame]
@[simp] theorem State.countErrors_ran (s : State) : s.countErrors.ran = s.ran := by rw [s.countErrors_frame]
@[simp] theorem State.countErrors_table (s : State) : s.countErrors.table = s.table := by rw [s.countErrors_frame]
@[simp] theorem State.countErrors_k (s : State) : s.countErrors.k = s.k := by rw [s.countErrors_frame]
@[simp] theorem State.countErrors_tvalid (s : State) : s.countErrors.tvalid = s.tvalid := by rw [s.countErrors_frame]
@[simp] theorem State.countErrors_svalid (s : State) : s.countErrors.svalid = s.svalid := by rw [s.countErrors_frame]
@[simp] theorem State.countErrors_inputs (s : State) : s.countErrors.inputs = s.inputs := by rw [s.countErrors_frame]
@[simp] theorem State.countErrors_responses (s : State) : s.countErrors.responses = s.responses := by
  rw [s.countErrors_frame]

/-- Seeding writes the stream registers, the working set and `SVALID` (rule R126). -/
theorem State.exists_seedAll (s : State) : ∃ r w, s.seedAll = { s with ran := r, work := w, svalid := true } :=
  ⟨_, _, s.seedAll_frame.1⟩

@[simp] theorem State.countErrors_readTable (s : State) (a : Nat) : s.countErrors.readTable a = s.readTable a := by
  rw [State.readTable, State.countErrors_table, State.readTable]

/-! ### How a command ends -/

/-- The ways a command can end, by name: refused in the faulted state, a fault taken, or carried out past the checks it
makes (rules R78, R200, R201). -/
inductive State.Ends (s : State) : Instr → State → Prop
  | refused {i : Instr} (hf : s.fault = true) : s.Ends i s.refuseFaulted
  | raised {i : Instr} (x : Cause) : s.Ends i (s.raise x)
  | nop : s.Ends .nop (s.respond 0#64)
  | cfg (k : Nat) (hlow : K_MIN ≤ k) (hhigh : k ≤ s.params.kMax) :
      s.Ends (.cfg k) ({ s with k := BitVec.ofNat 6 k }.clearFlags.respond 0#64)
  | rds (c : Nat) (v : Word) (hc : s.readCsr c = some v) : s.Ends (.rds c) (s.respond v)
  | starts (n : Word) :
      s.Ends (.starts n) ({ s with work := (s.work.jumpAhead n).1 }.respond (s.work.jumpAhead n).2)
  | step (j : BitVec 7) (hs : s.svalid = true) :
      s.Ends (.step j) ((s.writeRan j (T (s.readRan j))).respond (T (s.readRan j)))
  | tinit : s.Ends .tinit (({ s with table := Memory.init s.tableSize s.table, tvalid := true }.setI
      s.tableSize).clearResults.respond 0#64)
  | txor (v : Word) (ht : s.tvalid = true) : s.Ends (.txor v) ((s.xupd v).clearResults.respond 0#64)
  | trd (a : Nat) (ht : s.tvalid = true) (ha : a < s.tableSize) : s.Ends (.trd a) (s.respond (s.readTable a))
  | seed : s.Ends .seed (s.seedAll.respond 0#64)
  | upd (j : BitVec 7) (ht : s.tvalid = true) (hs : s.svalid = true) :
      s.Ends (.upd j) ((State.updStream j s).clearResults.respond (T (s.readRan j)))
  | run (ht : s.tvalid = true) : s.Ends .run (s.seedAll.updateRounds.clearResults.respond 0#64)
  | rdr (j : BitVec 7) (hs : s.svalid = true) : s.Ends (.rdr j) (s.respond (s.readRan j))
  | verify (ht : s.tvalid = true) :
      s.Ends .verify (s.replay.countErrors.judge.respond s.replay.countErrors.errcnt)

theorem exec_ends {i : Instr} {s t : State} (h : exec i s = .next t) : s.Ends i t := by
  cases hf : s.fault
  case true =>
    obtain rfl := Host.Outcome.next.inj ((exec_faulted hf i).symm.trans h)
    exact .refused hf
  case false =>
    obtain ⟨x, rfl⟩ | ⟨rfl, rfl⟩ | ⟨k, rfl, hlow, hhigh, rfl⟩ | ⟨c, v, rfl, hc, rfl⟩ | ⟨n, rfl, rfl⟩ |
      ⟨j, rfl, hs, rfl⟩ | ⟨rfl, rfl⟩ | ⟨v, rfl, ht, rfl⟩ | ⟨a, rfl, ht, ha, rfl⟩ | ⟨rfl, rfl⟩ | ⟨j, rfl, ht, hs, rfl⟩ |
      ⟨rfl, ht, rfl⟩ | ⟨j, rfl, hs, rfl⟩ | ⟨rfl, ht, rfl⟩ := exec_cases hf h
    exacts [.raised x, .nop, .cfg k hlow hhigh, .rds c v hc, .starts n, .step j hs, .tinit, .txor v ht, .trd a ht ha,
      .seed, .upd j ht hs, .run ht, .rdr j hs, .verify ht]

/-! ### Every word is answered -/

/-- Settles O5: the word is the flag appended above the 64 bits of the datum. -/
theorem responseWordFields : Obligations.ResponseWordFields := by
  intro f d
  have hbit (k : Nat) : (responseWord f d).getLsbD k =
      if k < 64 then d.getLsbD k else (BitVec.ofBool f).getLsbD (k - 64) := BitVec.getLsbD_append
  refine ⟨?flag, BitVec.eq_of_getLsbD_eq fun i hi => ?datum⟩
  case flag => rw [hbit, if_neg (by decide), Nat.sub_self]; cases f <;> rfl
  case datum => rw [BitVec.getLsbD_extractLsb', Nat.zero_add, hbit, if_pos hi, decide_eq_true hi, Bool.true_and]

/-- A command, carried out or refused, delivers one response and takes nothing more from the channel (rule R70). -/
theorem exec_responds {i : Instr} {s t : State} (h : exec i s = .next t) :
    ∃ r, t.responses = s.responses ++ [r] ∧ t.inputs = s.inputs := by
  cases exec_ends h with
  | starts | seed | run | verify => simp
  | _ => exact ⟨_, rfl, rfl⟩

/-- A word that is no command is answered like one (rules R70, R193, R194). -/
theorem acceptWord_responds (w : BitVec 68) (s : State) :
    ∃ t r, acceptWord w s = .next t ∧ t.responses = s.responses ++ [r] ∧ t.inputs = s.inputs := by
  unfold acceptWord
  cases decode w with
  | command i =>
    obtain ⟨t, ht⟩ := exec_next i s
    obtain ⟨r, hr⟩ := exec_responds ht
    exact ⟨t, r, ht, hr⟩
  | error e =>
    cases hf : s.fault
    · exact ⟨_, _, State.command_ok hf _, rfl, rfl⟩
    · exact ⟨_, _, State.command_faulted hf _, rfl, rfl⟩

/-- Settles O9: the step is the word accepted, which is answered once whatever it is. -/
theorem oneResponsePerCommand : Obligations.OneResponsePerCommand := by
  intro s w rest hin
  rw [step_input hin]
  exact acceptWord_responds w { s with inputs := rest }

/-- Settles O10: with no input there is nothing to accept. -/
theorem waitingBlockIsUnchanged : Obligations.WaitingBlockIsUnchanged := by
  intro s hin
  rw [step, serve, hin]

/-- Settles O8: waiting and reset are next states, and every word is answered. -/
theorem everyStepCompletes : Obligations.EveryStepCompletes := by
  intro s
  cases hin : s.inputs with
  | nil => exact ⟨s, waitingBlockIsUnchanged s hin⟩
  | cons x rest =>
    rw [Completes, step_input hin]
    cases x with
    | command w =>
      obtain ⟨t, -, ht, -⟩ := acceptWord_responds w { s with inputs := rest }
      exact ⟨t, ht⟩
    | reset => exact ⟨_, rfl⟩
    | resetDuring w => exact ⟨_, rfl⟩

/-- Settles O7: the word accepted is carried out as the command it decodes to. -/
theorem stepRunsDecodedCommand : Obligations.StepRunsDecodedCommand := by
  intro s w rest i hin hdec
  rw [step_input hin, acceptInput, acceptWord, hdec]

/-! ### Reset -/

/-- Settles O16: the values are written out in `State.resetWith` and the default parameters. -/
theorem resetStateValues : Obligations.ResetStateValues := by
  refine ⟨rfl, rfl, ?_, rfl, rfl, rfl, rfl, rfl, rfl⟩
  decide

/-- Settles O17: both kinds of reset leave the reset state with the block's own parameters and channels. -/
theorem resetGivesResetValues : Obligations.ResetGivesResetValues := by
  intro s x rest hin hx
  refine ⟨{ s with inputs := rest }.hardReset, ?_, rfl, rfl, rfl, rfl, rfl, rfl, rfl, rfl, rfl, rfl, rfl⟩
  rw [step_input hin, acceptInput_reset hx]

/-! ### The assembler -/

/-- Settles O6: the five lines, assembled. -/
theorem assemblerLinesEncode : Obligations.AssemblerLinesEncode := by
  refine ⟨?_, ?_, ?_, ?_, ?_⟩ <;> decide

/-! ### `K` and the parameters -/

/-- A command keeps the parameters, and all but a `CFG` carried out keep `K` (rules R7, R27). -/
theorem exec_params_k {i : Instr} {s t : State} (h : exec i s = .next t) :
    t.params = s.params ∧ (t.k = s.k ∨ ∃ k, i = .cfg k ∧ t.k = BitVec.ofNat 6 k) := by
  cases exec_ends h with
  | cfg k => exact ⟨rfl, .inr ⟨k, rfl, rfl⟩⟩
  | starts | seed | run | verify => simp
  | _ => exact ⟨rfl, .inl rfl⟩

/-- Settles O57: of the ways a step can go only a `CFG` and a reset write `K`. -/
theorem onlyCfgAndResetWriteK : Obligations.OnlyCfgAndResetWriteK := by
  intro s t h
  obtain ⟨-, rfl⟩ | ⟨w, rest, i, hin, hdec, hexec⟩ | ⟨w, rest, e, -, -, rfl⟩ | ⟨x, rest, hin, hx, rfl⟩ := step_cases h
  · exact ⟨rfl, .inl rfl⟩
  · obtain ⟨hp, hk | ⟨k, rfl, hk⟩⟩ := exec_params_k hexec
    · exact ⟨hp, .inl hk⟩
    · exact ⟨hp, .inr (.inl ⟨w, rest, k, hin, hdec, hk⟩)⟩
  · split <;> exact ⟨rfl, .inl rfl⟩
  · exact ⟨rfl, .inr (.inr ⟨x, rest, hin, hx, rfl⟩)⟩

end Sys2Proof.Machine
end

section
/-! SUPPORT. The invariant of the block: it holds at reset and every step keeps it (rules R23, R27 to R31, R35, R191). -/

namespace Sys2Proof.Machine

/-! ### At reset -/

/-- Settles O50: the table is empty, every flag is clear and `K_RESET` fits its register. -/
theorem resetMeetsTheInvariant : Obligations.ResetMeetsTheInvariant := by
  intro p hp
  obtain ⟨hmin, hmax, hlow, hhigh, hnum, hden⟩ := hp
  have hk : (State.resetWith p).k.toNat = p.kReset := Nat.mod_eq_of_lt (by omega)
  exact {
    params := ⟨hmin, hmax, hlow, hhigh, hnum, hden⟩
    kLow := by rw [hk]; exact hlow
    kHigh := by rw [hk]; exact hhigh
    tableWf := State.resetWith_wf p
    tableFits := by simp [State.resetWith]
    streams := nofun
    done := nofun
    notDone := fun _ => ⟨rfl, rfl⟩
    noFault := fun _ => rfl
    faultCode := nofun }

/-! ### The shared operations -/

theorem Cause.code_range (x : Cause) : 1 ≤ x.code.toNat ∧ x.code.toNat ≤ 7 := by
  cases x <;> decide

namespace State.Inv

variable {s : State}

/-- The invariant says nothing of the channels. -/
theorem setInputs (h : s.Inv) (xs : List Input) : { s with inputs := xs }.Inv := { h with }

theorem deliver (h : s.Inv) (r : Response) : (s.deliver r).Inv := { h with }

theorem respond (h : s.Inv) (d : Word) : (s.respond d).Inv := h.deliver _

/-- The working set carries nothing (rules R24 to R26). -/
theorem setWork (h : s.Inv) (w : Work) : { s with work := w }.Inv := { h with }

/-- Fault entry writes one of the seven codes (rules R191, R200). -/
theorem raise (h : s.Inv) (x : Cause) : (s.raise x).Inv :=
  { h with
    noFault := nofun
    faultCode := fun _ => x.code_range }

/-- Reset keeps the parameters, and the rest is the reset state (rule R220). -/
theorem hardReset (h : s.Inv) : s.hardReset.Inv := { resetMeetsTheInvariant s.params h.params with }

/-- A write of one stream register by a term of the sequence (rule R35). -/
theorem writeRan (h : s.Inv) (j : BitVec 7) (m : Nat) : (s.writeRan j (term m)).Inv :=
  { h with
    streams := fun hs l => by
      rw [State.readRan_writeRan]
      split
      · exact ⟨m, rfl⟩
      · exact h.streams hs l }

/-- The table fits the physical memory at every size `CFG` allows (rules R5, R23). -/
theorem tableSize_le (h : s.Inv) : s.tableSize ≤ 2 ^ s.params.kMax := Nat.pow_le_pow_right (by decide) h.kHigh

/-- The table may be replaced by one in canonical form that fits, if the results are cleared with it (rules R23, R28). -/
theorem setTable (h : s.Inv) {m : Memory} (hm : Memory.wf m) (hfits : ∀ c ∈ m, c.1 < 2 ^ s.params.kMax) :
    { s with table := m }.clearResults.Inv :=
  { h with
    tableWf := hm
    tableFits := hfits
    done := nofun
    notDone := fun _ => ⟨rfl, rfl⟩ }

/-- The next value of a readable stream is a term of the sequence (rule R35). -/
theorem next_term (h : s.Inv) (hs : s.svalid = true) (j : BitVec 7) : ∃ m, T (s.readRan j) = term m := by
  obtain ⟨m, hm⟩ := h.streams hs j
  exact ⟨m + 1, by rw [hm, term_succ]⟩

/-! ### The commands -/

theorem cfg (h : s.Inv) {k : Nat} (hlow : K_MIN ≤ k) (hhigh : k ≤ s.params.kMax) :
    { s with k := BitVec.ofNat 6 k }.clearFlags.Inv := by
  have hk : (BitVec.ofNat 6 k).toNat = k := Nat.mod_eq_of_lt (by have := h.params.2.1; omega)
  exact { h with
    kLow := by rwa [← hk] at hlow
    kHigh := by rwa [← hk] at hhigh
    streams := nofun
    done := nofun
    notDone := fun _ => ⟨rfl, rfl⟩ }

theorem tinit (h : s.Inv) :
    ({ s with table := Memory.init s.tableSize s.table, tvalid := true }.setI s.tableSize).clearResults.Inv :=
  { h.setTable (Memory.wf_init h.tableWf _) (fun c hc => h.tableFits c (Memory.mem_init hc)) with
    done := nofun }

theorem txor (h : s.Inv) (v : Word) : (s.xupd v).clearResults.Inv :=
  h.setTable (State.xupd_wf h.tableWf v) (State.xupd_fits h.tableSize_le h.tableFits v)

theorem upd (h : s.Inv) (hs : s.svalid = true) (j : BitVec 7) : (State.updStream j s).clearResults.Inv := by
  obtain ⟨m, hm⟩ := h.next_term hs j
  rw [State.updStream, hm]
  exact (h.writeRan j m).txor (term m)

/-- Seeding leaves a term of the sequence in every stream (rules R35, R126). -/
theorem seedAll (h : s.Inv) : s.seedAll.Inv := by
  have hran (j : BitVec 7) : ∃ m, s.seedAll.readRan j = term m := ⟨_, s.readRan_seedAll j⟩
  obtain ⟨r, w, hs⟩ := s.exists_seedAll
  rw [hs] at hran ⊢
  exact { h with streams := fun _ => hran }

/-- The update phase only advances the streams (rules R35, R128). -/
theorem updateRounds (h : s.Inv) (hs : s.svalid = true) : s.updateRounds.clearResults.Inv := by
  obtain ⟨hran, -⟩ := State.updateRounds_spec h.tableWf
  have hwf := State.updateRounds_wf h.tableWf
  have hfits := State.updateRounds_fits h.tableSize_le h.tableFits
  rw [s.updateRounds_frame]
  exact { h.setTable hwf hfits with
    streams := fun _ j => by
      obtain ⟨m, hm⟩ := h.streams hs j
      exact ⟨s.rounds + m, by rw [term_add, ← hm]; exact hran j⟩ }

/-- `VERIFY` leaves the exact count of the table it leaves, and the judgement of that count (rules R152 to R154). -/
theorem verify (h : s.Inv) (ht : s.tvalid = true) : s.replay.countErrors.judge.Inv := by
  have hreplay : s.replay.clearResults.Inv := by
    have hwf := State.replay_wf h.tableWf
    have hfits := State.replay_fits h.tableSize_le h.tableFits
    rw [s.replay_frame]
    exact { h.setTable hwf hfits with }
  have hcount := s.replay.countErrors_toNat
  rw [s.replay.countErrors_frame]
  exact { hreplay with
    done := fun _ => ⟨by simpa using ht, hcount, rfl⟩
    notDone := nofun }

end State.Inv

/-! ### Every step -/

/-- Every command keeps the invariant. -/
theorem State.Inv.exec {i : Instr} {s t : State} (h : s.Inv) (hexec : Machine.exec i s = .next t) : t.Inv := by
  cases exec_ends hexec with
  | refused => exact h.deliver _
  | raised x => exact h.raise x
  | nop => exact h.respond _
  | cfg k hlow hhigh => exact (h.cfg hlow hhigh).respond _
  | rds c v => exact h.respond _
  | starts n => exact (h.setWork _).respond _
  | step j hs =>
    obtain ⟨m, hm⟩ := h.next_term hs j
    exact (hm ▸ h.writeRan j m).respond _
  | tinit => exact h.tinit.respond _
  | txor v => exact (h.txor v).respond _
  | trd a => exact h.respond _
  | seed => exact h.seedAll.respond _
  | upd j _ hs => exact (h.upd hs j).respond _
  | run => exact (h.seedAll.updateRounds s.seedAll_svalid).respond _
  | rdr j => exact h.respond _
  | verify ht => exact (h.verify ht).respond _

/-- Settles O51: waiting changes nothing, a command, a decode fault or a refusal keeps the invariant, and reset
establishes it. -/
theorem everyStepKeepsTheInvariant : Obligations.EveryStepKeepsTheInvariant := by
  intro s t h hstep
  obtain ⟨-, rfl⟩ | ⟨w, rest, i, -, -, hexec⟩ | ⟨w, rest, e, -, -, rfl⟩ | ⟨x, rest, -, -, rfl⟩ := step_cases hstep
  · exact h
  · exact (h.setInputs rest).exec hexec
  · split
    · exact (h.setInputs rest).deliver _
    · exact (h.setInputs rest).raise _
  · exact (h.setInputs rest).hardReset

/-- Settles O53: readable streams and jump-aheads are terms of the sequence, none of which is zero. -/
theorem noGeneratorStateIsZero : Obligations.NoGeneratorStateIsZero := by
  refine ⟨fun s t h hstep hs j => ?_, fun w n => ?_⟩
  · obtain ⟨m, hm⟩ := (everyStepKeepsTheInvariant s t h hstep).streams hs j
    exact hm ▸ term_ne_zero m
  · exact w.jumpAhead_value n ▸ term_ne_zero _

end Sys2Proof.Machine
end

section
/-! SUPPORT. Storage the rules leave unspecified never shows: states the host cannot tell apart stay so (rules R24 to
R26, R36). -/

namespace Sys2Proof.Machine

/-! ### Loops side by side -/

/-- Two states in a relation that the counter does not touch and the body keeps are in it after a loop over `I`. -/
theorem forI_rel (R : State → State → Prop) (hI : ∀ a b n, R a b → R (a.setI n) (b.setI n)) {s t : State} {n : Nat}
    {body : Nat → State → State} (h0 : R s t) (h : ∀ i a b, R a b → R (body i a) (body i b)) :
    R (s.forI n body) (t.forI n body) := by
  unfold State.forI
  exact iter_rel R (hI s t 0 h0) fun i a b hab => hI _ _ _ (h i a b hab)

/-- Two states in a relation that the counter does not touch and the body keeps are in it after a loop over the streams. -/
theorem forJ_rel (R : State → State → Prop) (hJ : ∀ a b n, R a b → R (a.setJ n) (b.setJ n)) {s t : State}
    {body : BitVec 7 → State → State} (h0 : R s t) (h : ∀ j a b, R a b → R (body j a) (body j b)) :
    R (s.forJ body) (t.forJ body) := by
  unfold State.forJ
  exact iter_rel R (hJ s t 0 h0) fun i a b hab => hJ _ _ _ (h _ a b hab)

namespace State.Alike

variable {s t : State}

/-! ### What alike states agree on -/

theorem tableSize_eq (h : s.Alike t) : s.tableSize = t.tableSize := by rw [State.tableSize, h.k, State.tableSize]

theorem index_eq (h : s.Alike t) (v : Word) : s.index v = t.index v := by rw [State.index_eq, h.k, State.index_eq]

theorem nupdate_eq (h : s.Alike t) : s.nupdate = t.nupdate := by rw [State.nupdate, h.tableSize_eq, State.nupdate]

theorem rounds_eq (h : s.Alike t) : s.rounds = t.rounds := by rw [State.rounds, h.nupdate_eq, State.rounds]

theorem readRan_eq (h : s.Alike t) (hs : s.svalid = true) (j : BitVec 7) : s.readRan j = t.readRan j := by
  rw [State.readRan, State.readRan]
  simp only [h.ran hs]

theorem readCsr_eq (h : s.Alike t) (c : Nat) : s.readCsr c = t.readCsr c := by
  have hstatus : s.status = t.status := by
    rw [State.status, State.status, h.pass, h.vdone, h.svalid, h.tvalid]
  rcases c with _ | _ | _ | _ | _ | c <;>
    simp [State.readCsr, hstatus, h.k, h.tableSize_eq, h.nupdate_eq, h.errcnt]

theorem mismatches_eq (h : s.Alike t) (ht : s.tvalid = true) : s.mismatches = t.mismatches := by
  rw [State.mismatches, State.mismatches, ← h.tableSize_eq, Nat.count_eq_card_filter_range, Nat.count_eq_card_filter_range]
  congr 1
  refine Finset.filter_congr fun i hi => ?_
  rw [h.table ht i (Finset.mem_range.1 hi)]

/-! ### The shared operations keep states alike -/

theorem setInputs (h : s.Alike t) (xs : List Input) : State.Alike { s with inputs := xs } { t with inputs := xs } :=
  { h with inputs := rfl }

theorem setWork (h : s.Alike t) (u v : Work) : State.Alike { s with work := u } { t with work := v } := { h with }

theorem setVran (h : s.Alike t) (v : Word) : (s.setVran v).Alike (t.setVran v) := h.setWork _ _

theorem deliver (h : s.Alike t) {r r' : Response} (hr : r = r') : (s.deliver r).Alike (t.deliver r') :=
  { h with responses := by rw [State.deliver_responses, State.deliver_responses, h.responses, hr] }

theorem respond (h : s.Alike t) {d d' : Word} (hd : d = d') : (s.respond d).Alike (t.respond d') := h.deliver (hd ▸ rfl)

theorem raise (h : s.Alike t) (x : Cause) : (s.raise x).Alike (t.raise x) :=
  State.Alike.deliver (s := { s with fault := true, cause := x.code }) (t := { t with fault := true, cause := x.code })
    { h with fault := rfl, cause := rfl } rfl

theorem refuseFaulted (h : s.Alike t) : s.refuseFaulted.Alike t.refuseFaulted := h.deliver (by rw [h.cause])

theorem clearResults (h : s.Alike t) : s.clearResults.Alike t.clearResults :=
  { h with vdone := rfl, pass := rfl, errcnt := rfl }

/-- With both valid flags clear nothing of the streams and the table can be read (rule R181). -/
theorem clearFlags (h : s.Alike t) (k : BitVec 6) :
    State.Alike { s with k := k }.clearFlags { t with k := k }.clearFlags :=
  { h with k := rfl, tvalid := rfl, svalid := rfl, vdone := rfl, pass := rfl, errcnt := rfl, ran := nofun, table := nofun }

theorem writeRan (h : s.Alike t) (j : BitVec 7) (v : Word) : (s.writeRan j v).Alike (t.writeRan j v) :=
  { h with ran := fun hs => by rw [State.writeRan_ran, State.writeRan_ran, h.ran hs] }

theorem xupd (h : s.Alike t) (hs : Memory.wf s.table) (ht : Memory.wf t.table) (v : Word) :
    (s.xupd v).Alike (t.xupd v) :=
  { h with
    table := fun hv i hi => by
      rw [State.readTable_xupd hs, State.readTable_xupd ht, h.index_eq, h.table hv i hi] }

theorem hardReset (h : s.Alike t) : s.hardReset.Alike t.hardReset where
  params := h.params
  k := by rw [State.hardReset_k, State.hardReset_k, h.params]
  tvalid := rfl
  svalid := rfl
  vdone := rfl
  pass := rfl
  errcnt := rfl
  fault := rfl
  cause := rfl
  inputs := h.inputs
  responses := h.responses
  ran := nofun
  table := nofun

/-! ### The checks -/

theorem command (h : s.Alike t) {f g : State → State} (hb : s.fault = false → (f s).Alike (g t)) :
    ∃ s' t', s.command f = .next s' ∧ t.command g = .next t' ∧ s'.Alike t' := by
  cases hf : s.fault
  · exact ⟨_, _, State.command_ok hf f, State.command_ok (h.fault ▸ hf) g, hb hf⟩
  · exact ⟨_, _, State.command_faulted hf f, State.command_faulted (h.fault ▸ hf) g, h.refuseFaulted⟩

theorem needTable (h : s.Alike t) {f g : State → State} (hb : s.tvalid = true → (f s).Alike (g t)) :
    (s.needTable f).Alike (t.needTable g) := by
  cases hv : s.tvalid
  · rw [State.needTable_raise hv, State.needTable_raise (h.tvalid ▸ hv)]
    exact h.raise _
  · rw [State.needTable_ok hv, State.needTable_ok (h.tvalid ▸ hv)]
    exact hb hv

theorem needStreams (h : s.Alike t) {f g : State → State} (hb : s.svalid = true → (f s).Alike (g t)) :
    (s.needStreams f).Alike (t.needStreams g) := by
  cases hv : s.svalid
  · rw [State.needStreams_raise hv, State.needStreams_raise (h.svalid ▸ hv)]
    exact h.raise _
  · rw [State.needStreams_ok hv, State.needStreams_ok (h.svalid ▸ hv)]
    exact hb hv

end State.Alike

/-! ### The long operations -/

/-- Alike states whose table and streams can be read, in canonical form: what the update phase keeps. -/
structure State.AlikeReadable (s t : State) : Prop where
  alike : s.Alike t
  svalid : s.svalid = true
  left : Memory.wf s.table
  right : Memory.wf t.table

/-- Alike states in canonical form whose replay has come equally far: what the replay keeps (rule R151). -/
structure State.AlikeReplay (s t : State) : Prop where
  alike : s.Alike t
  vran : s.work.vran = t.work.vran
  left : Memory.wf s.table
  right : Memory.wf t.table

namespace State.Alike

variable {s t : State}

/-- Seeding overwrites every stream by a value of `K` and the stream's number alone (rule R126). -/
theorem seedAll (h : s.Alike t) : s.seedAll.Alike t.seedAll := by
  have hran : s.seedAll.ran = t.seedAll.ran := ran_ext fun j => by
    rw [State.readRan_seedAll, State.readRan_seedAll, State.seedOffset, h.rounds_eq, State.seedOffset]
  obtain ⟨r, w, hs⟩ := s.exists_seedAll
  obtain ⟨r', w', ht⟩ := t.exists_seedAll
  rw [hs, ht] at hran ⊢
  exact { h with svalid := rfl, ran := fun _ => hran }

theorem updStream (h : s.Alike t) (hs : s.svalid = true) (hl : Memory.wf s.table) (hr : Memory.wf t.table)
    (j : BitVec 7) : (State.updStream j s).Alike (State.updStream j t) := by
  rw [State.updStream, State.updStream, h.readRan_eq hs]
  exact (h.writeRan j _).xupd hl hr _

theorem updateRounds (h : s.AlikeReadable t) : s.updateRounds.Alike t.updateRounds := by
  have key : s.updateRounds.AlikeReadable t.updateRounds := by
    rw [State.updateRounds, State.updateRounds, ← h.alike.rounds_eq]
    refine forI_rel State.AlikeReadable (fun _ _ _ hab => { hab with alike := hab.alike.setWork _ _ }) h
      fun _ _ _ hab => forJ_rel State.AlikeReadable (fun _ _ _ hab => { hab with alike := hab.alike.setWork _ _ }) hab
        fun j a b hab => ?_
    exact ⟨hab.alike.updStream hab.svalid hab.left hab.right j, hab.svalid, State.xupd_wf hab.left _,
      State.xupd_wf hab.right _⟩
  exact key.alike

theorem replay (h : s.Alike t) (hl : Memory.wf s.table) (hr : Memory.wf t.table) : s.replay.Alike t.replay := by
  have key : s.replay.AlikeReplay t.replay := by
    rw [State.replay, State.replay, ← h.nupdate_eq]
    refine forI_rel State.AlikeReplay (fun _ _ _ hab => { hab with alike := hab.alike.setWork _ _ })
      ⟨h.setWork _ _, rfl, hl, hr⟩ fun _ a b hab => ?_
    rw [State.replayStep, State.replayStep, hab.vran]
    exact ⟨(hab.alike.setVran (T b.work.vran)).xupd hab.left hab.right _, rfl, State.xupd_wf hab.left _,
      State.xupd_wf hab.right _⟩
  exact key.alike

/-- The count is of readable words only (rule R152). -/
theorem countErrors (h : s.Alike t) (hv : s.tvalid = true) : s.countErrors.Alike t.countErrors := by
  have hcount : s.countErrors.errcnt = t.countErrors.errcnt := by
    rw [State.countErrors_errcnt, State.countErrors_errcnt, h.mismatches_eq hv]
  rw [s.countErrors_frame, t.countErrors_frame]
  exact { h with errcnt := hcount }

theorem judge (h : s.Alike t) : s.judge.Alike t.judge :=
  { h with
    vdone := rfl
    pass := by
      rw [State.judge_pass, State.judge_pass, State.withinTolerance, State.withinTolerance, h.errcnt, h.params,
        h.tableSize_eq] }

/-! ### Every step -/

/-- Alike states answer every command alike. -/
theorem exec (h : s.Alike t) (hl : Memory.wf s.table) (hr : Memory.wf t.table) (i : Instr) :
    ∃ s' t', Machine.exec i s = .next s' ∧ Machine.exec i t = .next t' ∧ s'.Alike t' := by
  cases i with
  | nop =>
    unfold Machine.exec execNop
    exact h.command fun _ => h.respond rfl
  | cfg k =>
    unfold Machine.exec execCfg
    refine h.command fun _ => ?_
    by_cases hk : k < K_MIN ∨ s.params.kMax < k
    · rw [if_pos hk, if_pos (h.params ▸ hk)]
      exact h.raise _
    · rw [if_neg hk, if_neg (h.params ▸ hk)]
      exact (h.clearFlags _).respond rfl
  | rds c =>
    unfold Machine.exec execRds
    refine h.command fun _ => ?_
    rw [← h.readCsr_eq c]
    split
    · exact h.respond rfl
    · exact h.raise _
  | starts n =>
    unfold Machine.exec execStarts
    exact h.command fun _ => (h.setWork _ _).respond (by rw [Work.jumpAhead_value, Work.jumpAhead_value])
  | step j =>
    unfold Machine.exec execStep
    refine h.command fun _ => h.needStreams fun hs => ?_
    rw [h.readRan_eq hs]
    exact (h.writeRan j _).respond rfl
  | tinit =>
    unfold Machine.exec execTinit
    refine h.command fun _ => State.Alike.respond (State.Alike.clearResults ?_) rfl
    exact { h with
      tvalid := rfl
      table := fun _ a (ha : a < s.tableSize) => by
        rw [State.setI_readTable, State.setI_readTable, State.readTable, State.readTable, Memory.read_init,
          Memory.read_init, if_pos ha, if_pos (h.tableSize_eq ▸ ha)] }
  | txor v =>
    unfold Machine.exec execTxor
    exact h.command fun _ => h.needTable fun _ => (h.xupd hl hr v).clearResults.respond rfl
  | trd a =>
    unfold Machine.exec execTrd
    refine h.command fun _ => h.needTable fun hv => ?_
    rw [← h.tableSize_eq]
    split
    · exact h.raise _
    · exact h.respond (h.table hv a (by omega))
  | seed =>
    unfold Machine.exec execSeed
    exact h.command fun _ => h.seedAll.respond rfl
  | upd j =>
    unfold Machine.exec execUpd
    exact h.command fun _ => h.needTable fun _ => h.needStreams fun hs =>
      (h.updStream hs hl hr j).clearResults.respond (by rw [h.readRan_eq hs])
  | run =>
    unfold Machine.exec execRun
    refine h.command fun _ => h.needTable fun _ => (State.Alike.clearResults ?_).respond rfl
    exact updateRounds ⟨h.seedAll, s.seedAll_svalid, by rwa [s.seedAll_table], by rwa [t.seedAll_table]⟩
  | rdr j =>
    unfold Machine.exec execRdr
    exact h.command fun _ => h.needStreams fun hs => h.respond (h.readRan_eq hs j)
  | verify =>
    unfold Machine.exec execVerify
    refine h.command fun _ => h.needTable fun hv => ?_
    have hcount := (h.replay hl hr).countErrors (by rwa [s.replay_tvalid])
    exact hcount.judge.respond hcount.errcnt

theorem acceptWord (h : s.Alike t) (hl : Memory.wf s.table) (hr : Memory.wf t.table) (w : BitVec 68) :
    ∃ s' t', Machine.acceptWord w s = .next s' ∧ Machine.acceptWord w t = .next t' ∧ s'.Alike t' := by
  unfold Machine.acceptWord
  cases decode w with
  | command i => exact h.exec hl hr i
  | error e => exact h.command fun _ => h.raise _

end State.Alike

/-- Settles O52: alike states have the same input pending, and they answer every input alike. -/
theorem unspecifiedStorageNeverShows : Obligations.UnspecifiedStorageNeverShows := by
  intro s t h hl hr
  cases hin : s.inputs with
  | nil => exact ⟨s, t, waitingBlockIsUnchanged s hin, waitingBlockIsUnchanged t (h.inputs ▸ hin), h⟩
  | cons x rest =>
    rw [step_input hin, step_input (h.inputs ▸ hin)]
    have hrest := h.setInputs rest
    cases x with
    | command w => exact hrest.acceptWord hl hr w
    | reset => exact ⟨_, _, rfl, rfl, hrest.hardReset⟩
    | resetDuring w => exact ⟨_, _, rfl, rfl, hrest.hardReset⟩

end Sys2Proof.Machine
end

section
/-! SUPPORT. The inverse of the transition rule, its first terms, and its reading as a polynomial (rules R10, R91). -/

namespace Sys2Proof.Machine

/-! ### The inverse -/

/-- The inverse of the transition rule (rule R91). -/
def Tinv (w : Word) : Word :=
  ((w ^^^ (if w.getLsbD 0 = true then 7#64 else 0#64)) >>> 1) |||
    (if w.getLsbD 0 = true then 0x8000000000000000#64 else 0#64)

/-- One bit of the inverse: bit 0 moves to the top, and the bits it was folded into are unfolded (rule R91). -/
theorem getLsbD_Tinv (w : Word) {i : Nat} (hi : i < 64) :
    (Tinv w).getLsbD i =
      ((w.getLsbD (i + 1) ^^ (decide (i < 2) && w.getLsbD 0)) || (decide (i = 63) && w.getLsbD 0)) := by
  have hfold : (7#64).getLsbD (i + 1) = decide (i < 2) := (getLsbD_POLY (i + 1)).trans (decide_eq_decide.2 (by omega))
  have htop : (0x8000000000000000#64).getLsbD i = decide (i = 63) := by
    rw [show 0x8000000000000000#64 = BitVec.twoPow 64 63 by decide, BitVec.getLsbD_twoPow]
    simp [eq_comm]
  unfold Tinv
  cases w.getLsbD 0 <;> simp [BitVec.getLsbD_ushiftRight, hfold, htop, Nat.add_comm 1 i]

/-- A bit of the result above bit 0 (rule R90). -/
theorem getLsbD_T_succ (v : Word) {i : Nat} (hi : i + 1 < 64) :
    (T v).getLsbD (i + 1) = (v.getLsbD i ^^ (decide (i < 2) && v.getLsbD 63)) := by
  have hfold : decide (i + 1 < 3) = decide (i < 2) := decide_eq_decide.2 (by omega)
  rw [getLsbD_T v hi, hfold, decide_eq_true (Nat.succ_pos i), Bool.true_and, Nat.add_sub_cancel]

/-- Undoing a transition and making it gives back the state (rule R91). -/
theorem T_Tinv (w : Word) : T (Tinv w) = w := by
  have h63 : (Tinv w).getLsbD 63 = w.getLsbD 0 := by
    rw [getLsbD_Tinv w (by decide), BitVec.getLsbD_of_ge w 64 le_rfl]; rfl
  refine BitVec.eq_of_getLsbD_eq fun i hi => ?_
  rcases i with _ | i
  · rw [T_bit_zero, h63]
  · rw [getLsbD_T_succ _ hi, h63, getLsbD_Tinv w (by omega), decide_eq_false (show i ≠ 63 by omega), Bool.false_and,
      Bool.or_false, Bool.xor_assoc, Bool.xor_self, Bool.xor_false]

/-! ### The first terms -/

/-- Where bit 63 is clear a transition is a shift (rule R90). -/
theorem T_of_bit63_clear {v : Word} (h : v.getLsbD 63 = false) : T v = v <<< 1 := by
  rw [T, h]
  exact BitVec.xor_zero

/-- The first terms are the powers of two (rule R91). -/
theorem term_eq_twoPow {n : Nat} (hn : n ≤ 63) : term n = BitVec.twoPow 64 n := by
  induction n with
  | zero => decide
  | succ n ih =>
    have hclear : (BitVec.twoPow 64 n).getLsbD 63 = false := by
      rw [BitVec.getLsbD_twoPow]; simp; omega
    rw [term_succ, ih (by omega), T_of_bit63_clear hclear, BitVec.twoPow_eq, ← BitVec.shiftLeft_add, BitVec.twoPow_eq]

theorem term_64 : term 64 = 7#64 := by
  refine (term_succ 63).trans ?_
  rw [term_eq_twoPow le_rfl]
  decide

/-- The terms after the first fold are shifts of 7 until it reaches the top. -/
theorem term_64_add {n : Nat} (hn : n ≤ 61) : term (64 + n) = 7#64 <<< n := by
  induction n with
  | zero => exact term_64
  | succ n ih =>
    have hclear : (7#64 <<< n).getLsbD 63 = false := by
      rw [BitVec.getLsbD_shiftLeft]
      have : (7#64).getLsbD (63 - n) = decide (63 - n < 3) := getLsbD_POLY _
      simp [this]; omega
    rw [← Nat.add_assoc, term_succ, ih (by omega), T_of_bit63_clear hclear, ← BitVec.shiftLeft_add]

/-- Settles O24: `T` is injective and undoes its inverse; the first terms by induction on their number. -/
theorem transitionIsLinearBijection : Obligations.TransitionIsLinearBijection := by
  refine ⟨T_xor, T_zero, fun v w => ?_, fun v hv h => hv (T_eq_zero h), fun n hn => term_eq_twoPow hn, term_64⟩
  change T v = w ↔ v = Tinv w
  rw [← T_injective.eq_iff (b := Tinv w), T_Tinv]

/-! ### The polynomial reading -/

/-- A word as a polynomial over GF(2) (rule R10). -/
noncomputable def poly (v : Word) : Polynomial (ZMod 2) :=
  ∑ j ∈ Finset.range 64, if v.getLsbD j = true then Polynomial.X ^ j else 0

/-- `P(x)`, the modulus of rule R10. -/
noncomputable def modulus : Polynomial (ZMod 2) := Polynomial.X ^ 64 + Polynomial.X ^ 2 + Polynomial.X + 1

/-- A bit as an element of GF(2). -/
def bitGF2 (b : Bool) : ZMod 2 := if b then 1 else 0

theorem bitGF2_xor (a b : Bool) : bitGF2 (a ^^ b) = bitGF2 a + bitGF2 b := by
  cases a <;> cases b <;> decide

/-- The coefficients of the polynomial are the bits of the word (rule R10). -/
theorem coeff_poly (v : Word) (n : Nat) : (poly v).coeff n = bitGF2 (v.getLsbD n) := by
  have hterm (j : Nat) : (if v.getLsbD j = true then (Polynomial.X : Polynomial (ZMod 2)) ^ j else 0).coeff n =
      if n = j then bitGF2 (v.getLsbD j) else 0 := by
    cases v.getLsbD j <;> simp [Polynomial.coeff_X_pow, bitGF2]
  simp only [poly, Polynomial.finsetSum_coeff, hterm, Finset.sum_ite_eq, Finset.mem_range]
  split
  · rfl
  · rw [BitVec.getLsbD_of_ge v n (by omega)]; rfl

theorem coeff_modulus (n : Nat) : modulus.coeff n = bitGF2 (decide (n = 64 ∨ n < 3)) := by
  simp only [modulus, Polynomial.coeff_add, Polynomial.coeff_X_pow, Polynomial.coeff_X, Polynomial.coeff_one]
  rcases n with _ | _ | _ | n
  · rfl
  · rfl
  · rfl
  · by_cases hn : n + 3 = 64 <;> simp [hn, bitGF2]

/-- Rule R91: `x · v(x)` is `T v` with the modulus added back where bit 63 was folded in. -/
theorem X_mul_poly (v : Word) : Polynomial.X * poly v = poly (T v) + if v.getLsbD 63 = true then modulus else 0 := by
  refine Polynomial.ext fun n => ?_
  have hmod : (if v.getLsbD 63 = true then modulus else 0).coeff n =
      bitGF2 (decide (n = 64 ∨ n < 3) && v.getLsbD 63) := by
    cases v.getLsbD 63 <;> simp [coeff_modulus]; rfl
  rw [Polynomial.coeff_add, hmod, coeff_poly, ← bitGF2_xor]
  rcases n with _ | n
  · rw [Polynomial.coeff_X_mul_zero, T_bit_zero, decide_eq_true (by decide), Bool.true_and, Bool.xor_self]
    rfl
  rw [Polynomial.coeff_X_mul, coeff_poly]
  refine congrArg bitGF2 ?_
  rcases Nat.lt_trichotomy (n + 1) 64 with hlt | heq | hgt
  · have hfold : decide (n + 1 = 64 ∨ n + 1 < 3) = decide (n < 2) := decide_eq_decide.2 (by omega)
    rw [getLsbD_T_succ v hlt, hfold, Bool.xor_assoc, Bool.xor_self, Bool.xor_false]
  · obtain rfl : n = 63 := by omega
    rw [BitVec.getLsbD_of_ge (T v) _ le_rfl, decide_eq_true (by decide), Bool.true_and, Bool.false_xor]
  · rw [BitVec.getLsbD_of_ge v n (by omega), BitVec.getLsbD_of_ge (T v) _ (by omega),
      decide_eq_false (by omega), Bool.false_and, Bool.false_xor]

/-- Settles O25: the two sides agree coefficient by coefficient. -/
theorem transitionMultipliesByX : Obligations.TransitionMultipliesByX := X_mul_poly

end Sys2Proof.Machine
end

section
/-! SUPPORT. What `STARTS` answers and what it leaves in the working set (rules R100 to R107). -/

namespace Sys2Proof.Machine

/-! ### The working set -/

theorem Work.loopPass_ji (w : Work) : w.loopPass.ji = w.ji - 1#6 := by
  unfold Work.loopPass
  dsimp only
  split <;> rfl

@[simp] theorem Work.loop_m2 (w : Work) : w.loop.m2 = w.m2 := iter_frame Work.m2 fun _ t => t.loopPass_frame.1

@[simp] theorem Work.loop_jn (w : Work) : w.loop.jn = w.jn := iter_frame Work.jn fun _ t => t.loopPass_frame.2.1

/-- LOOP counts `JI` down to zero (rule R105). -/
theorem Work.loop_ji (w : Work) : w.loop.ji = 0#6 := by
  have hcount : w.loop.ji = w.ji - BitVec.ofNat 6 w.ji.toNat := by
    refine iter_rec (fun p (u : Work) => u.ji = w.ji - BitVec.ofNat 6 p) (BitVec.sub_zero _).symm fun p u _ hu => ?_
    rw [Work.loopPass_ji, hu, BitVec.ofNat_add, sub_sub]
  rw [hcount, BitVec.ofNat_toNat, BitVec.setWidth_eq, BitVec.sub_self]

/-- An operand that does not normalise to zero goes through BUILD, MSB and LOOP (rule R107). -/
theorem Work.jumpAhead_of_ne_zero (w : Work) {n : Word} (h : normInt n.toInt ≠ 0) :
    w.jumpAhead n = ((w.norm n).build.msb.loop, (w.norm n).build.msb.loop.jran) := by
  have hjn : (w.norm n).jn ≠ 0#64 := fun h0 => h (by rw [← w.norm_toInt n, h0]; rfl)
  unfold Work.jumpAhead
  dsimp only
  rw [if_neg hjn]

/-- The rows are in `M2`, whatever the rest of the working set holds (rule R24). -/
theorem Work.Built.of_m2 {w u : Work} (h : w.Built) (hm : u.m2 = w.m2) : u.Built := fun i hi => by
  rw [← h i hi, Work.readM2, Work.readM2]
  simp only [hm]

/-- A jump-ahead that builds leaves its operand and its rows, the bit index counted down and the result (rules R100 to
R105). -/
theorem Work.jumpAhead_leaves (w : Work) {n : Word} (h : normInt n.toInt ≠ 0) :
    (w.jumpAhead n).1.jn.toInt = normInt n.toInt ∧ (w.jumpAhead n).1.ji = 0#6 ∧
      (w.jumpAhead n).1.jran = term (normInt n.toInt).toNat ∧ (w.jumpAhead n).1.Built := by
  have hvalue := w.jumpAhead_value n
  rw [w.jumpAhead_of_ne_zero h] at hvalue ⊢
  refine ⟨?_, Work.loop_ji _, hvalue, (w.norm n).build_spec.1.msb.of_m2 (Work.loop_m2 _)⟩
  rw [Work.loop_jn, Work.msb_jn, Work.build_jn, w.norm_toInt]

/-! ### The rows of the squaring matrix -/

/-- The rows below the fold: even powers of two (rule R102). -/
theorem Work.Built.readM2_low {w : Work} (h : w.Built) {i : Nat} (hi : i < 32) :
    w.readM2 (BitVec.ofNat 6 i) = BitVec.twoPow 64 (2 * i) := by
  rw [h i (by omega), term_eq_twoPow (by omega)]

/-- The rows past the fold: even shifts of 7 (rule R102). -/
theorem Work.Built.readM2_high {w : Work} (h : w.Built) {i : Nat} (h32 : 32 ≤ i) (hi : i < 63) :
    w.readM2 (BitVec.ofNat 6 i) = 7#64 <<< (2 * (i - 32)) := by
  rw [h i (by omega), show 2 * i = 64 + 2 * (i - 32) by omega, term_64_add (by omega)]

/-- The last row, where 7 reaches the top (rule R102). -/
theorem Work.Built.readM2_last {w : Work} (h : w.Built) : w.readM2 63#6 = 0xC000000000000007#64 := by
  refine (h 63 (by decide)).trans ?_
  change term (64 + 61 + 1) = _
  rw [term_succ, term_64_add le_rfl]
  decide

/-- Settles O31: the working set is that of LOOP, which leaves the operand and the rows of BUILD as they were. -/
theorem startsLeavesWorkingSet : Obligations.StartsLeavesWorkingSet := by
  intro s n hf hn
  have hframe := s.work.jumpAhead_frame n
  have hleaves := s.work.jumpAhead_leaves hn
  refine ⟨_, exec_starts hf n, ?_⟩
  generalize s.work.jumpAhead n = p at hframe hleaves ⊢
  obtain ⟨hjn, hji, hjran, hbuilt⟩ := hleaves
  exact ⟨hjn, hji, hjran, fun i hi => hbuilt.readM2_low hi, fun i h32 hi => hbuilt.readM2_high h32 hi,
    hbuilt.readM2_last, hframe⟩

/-! ### The answer -/

/-- Rule R106 for a negative operand: so many transitions lead back to state 1. -/
theorem iterate_T_term_normInt_neg {n : Int} (h : n < 0) : T^[(-n).toNat] (term (normInt n).toNat) = 1#64 := by
  obtain ⟨h0, -⟩ := normInt_range n
  have hmod := normInt_emod n
  rw [← term_add, ← term_zero]
  refine term_congr ?_
  rw [PERIOD_eq] at hmod
  change _ % 1317624576693539401 = 0 % 1317624576693539401
  omega

/-- Settles O32: the answer is the term the normalised operand numbers, and NORM keeps residues modulo `PERIOD`. -/
theorem startsAnswersNthTerm : Obligations.StartsAnswersNthTerm := by
  intro s n hf
  have hvalue := s.work.jumpAhead_value n
  refine ⟨_, term (normInt n.toInt).toNat, exec_starts hf n, ?_⟩
  generalize s.work.jumpAhead n = p at hvalue ⊢
  rw [hvalue]
  refine ⟨rfl, fun h => by rw [h]; rfl, rfl, fun hpos => ?_, iterate_T_term_normInt_neg⟩
  obtain ⟨m, hm⟩ := Int.eq_ofNat_of_zero_le hpos
  rw [hm]
  exact term_normInt

end Sys2Proof.Machine
end

section
/-! SUPPORT. The system commands and the commands on single streams (rules R92, R126, R129, R180 to R183). -/

namespace Sys2Proof.Machine

/-! ### System commands -/

/-- Settles O18: the response is the whole effect. -/
theorem nopRespondsZero : Obligations.NopRespondsZero := by
  intro s hf
  exact exec_nop hf

/-- Settles O19: an exponent in range is at most `K_MAX` and so fits the six bits of `K`. -/
theorem cfgChoosesTableSize : Obligations.CfgChoosesTableSize := by
  intro s k hf hlow hhigh hmax
  exact ⟨_, exec_cfg hf hlow hhigh, Nat.mod_eq_of_lt (show k < 2 ^ 6 by omega), rfl⟩

/-- The bits of `STATUS` (rule R32). -/
theorem State.getLsbD_status (s : State) :
    s.status.getLsbD 0 = s.tvalid ∧ s.status.getLsbD 1 = s.svalid ∧ s.status.getLsbD 2 = s.vdone ∧
      s.status.getLsbD 3 = s.pass ∧ ∀ b, 4 ≤ b → s.status.getLsbD b = false := by
  unfold State.status
  refine ⟨?_, ?_, ?_, ?_, fun b hb => ?_⟩
  case refine_5 => rw [BitVec.getLsbD_setWidth, BitVec.getLsbD_of_ge _ b hb, Bool.and_false]
  all_goals cases s.tvalid <;> cases s.svalid <;> cases s.vdone <;> cases s.pass <;> rfl

/-- `NUPDATE = 2^(K+2)` (rule R4). -/
theorem State.nupdate_eq (s : State) : s.nupdate = 2 ^ (s.k.toNat + 2) := by
  rw [State.nupdate, State.tableSize, pow_add, mul_comm]
  rfl

/-- The table's size and four times it fit a word at every legal exponent (rule R33). -/
theorem State.toNat_sizes {s : State} (h : s.k.toNat ≤ 60) :
    (BitVec.ofNat 64 s.tableSize).toNat = 2 ^ s.k.toNat ∧
      (BitVec.ofNat 64 s.nupdate).toNat = 2 ^ (s.k.toNat + 2) := by
  have h62 : 2 ^ (s.k.toNat + 2) ≤ 2 ^ 62 := Nat.pow_le_pow_right (by decide) (by omega)
  have h60 : 2 ^ s.k.toNat ≤ 2 ^ 60 := Nat.pow_le_pow_right (by decide) h
  refine ⟨Nat.mod_eq_of_lt (show 2 ^ s.k.toNat < 2 ^ 64 by omega), ?_⟩
  rw [s.nupdate_eq]
  exact Nat.mod_eq_of_lt (by omega)

/-- Settles O21: each of the five numbers names a register, read as it stands. -/
theorem rdsReadsStatusRegisters : Obligations.RdsReadsStatusRegisters := by
  intro s c hf hc hk
  obtain ⟨d, hd⟩ := Option.ne_none_iff_exists'.1 (mt (s.readCsr_eq_none_iff c).1 (by omega))
  refine ⟨d, exec_rds hf hd, ?status, ?exponent, ?size, ?updates, ?errors⟩ <;> rintro rfl <;>
    obtain rfl := Option.some.inj hd
  case status => exact s.getLsbD_status
  case exponent => exact BitVec.toNat_setWidth_of_le (by decide)
  case size => exact (State.toNat_sizes hk).1
  case updates => exact (State.toNat_sizes hk).2
  case errors => rfl

/-! ### Single streams -/

/-- Settles O27: `STEP` is one write of the register it names. -/
theorem stepAdvancesOneStream : Obligations.StepAdvancesOneStream := by
  intro s j hf hs
  refine ⟨_, exec_step hf hs j, ?_, fun l hl => ?_, rfl⟩
  · rw [State.respond_readRan, State.readRan_writeRan, if_pos rfl]
  · rw [State.respond_readRan, State.readRan_writeRan, if_neg hl]

/-- Settles O28: the response is the whole effect. -/
theorem rdrReadsOneStream : Obligations.RdrReadsOneStream := by
  intro s j hf hs
  exact exec_rdr hf hs j

/-- Settles O34: each stream's jump-ahead is exact, and seeding writes nothing else but the working set. -/
theorem seedSetsEveryStream : Obligations.SeedSetsEveryStream := by
  intro s hf h7 h60
  refine ⟨_, exec_seed hf, fun j => ?_, ?_⟩
  · rw [State.respond_readRan, State.readRan_seedAll_eq h7 h60, State.rounds_eq h7]
    rfl
  · obtain ⟨r, w, hseed⟩ := s.exists_seedAll
    rw [hseed]
    rfl

end Sys2Proof.Machine
end

section
/-! SUPPORT. The commands on the table, one word or the whole (rules R121 to R127). -/

namespace Sys2Proof.Machine

/-! ### Initialising -/

/-- Settles O36: the words below the table size read as unlisted words do. -/
theorem tinitMakesTheTableTheIdentity : Obligations.TinitMakesTheTableTheIdentity := by
  intro s hf
  exact ⟨_, exec_tinit hf, fun i => Memory.read_init s.table s.tableSize i, rfl, rfl⟩

/-- What the rule's loop of writes leaves, in canonical form (rule R121). -/
theorem Memory.iter_write {m : Memory} (h : Memory.wf m) (n : Nat) :
    Memory.wf (iter n (fun i m => Memory.write m i (BitVec.ofNat 64 i)) m) ∧
      ∀ a, Memory.read (iter n (fun i m => Memory.write m i (BitVec.ofNat 64 i)) m) a =
        if a < n then Memory.initial a else Memory.read m a := by
  refine iter_rec (fun n u => Memory.wf u ∧ ∀ a, Memory.read u a = if a < n then Memory.initial a else Memory.read m a)
    ⟨h, fun _ => rfl⟩ fun i u _ hu => ?_
  obtain ⟨hwf, hread⟩ := hu
  refine ⟨Memory.wf_write hwf _ _, fun a => ?_⟩
  rw [Memory.read_write hwf, hread]
  by_cases ha : a = i
  · rw [if_pos ha, if_pos (by omega), ha, Memory.initial]
  · rw [if_neg ha]
    exact if_congr (by omega) rfl rfl

/-- Settles O37: both tables are in canonical form and read the same. -/
theorem tinitIsTheLoopOfWrites : Obligations.TinitIsTheLoopOfWrites := by
  intro m n h
  obtain ⟨hwf, hread⟩ := Memory.iter_write h n
  exact Memory.ext (Memory.wf_init h n) hwf fun a => by rw [Memory.read_init, hread]

/-! ### Single words -/

/-- Settles O38: `TXOR` is one update. -/
theorem txorUpdatesOneWord : Obligations.TxorUpdatesOneWord := by
  intro s v hf ht hwf
  exact ⟨_, exec_txor hf ht v, fun a => State.readTable_xupd hwf v a, rfl⟩

/-- An update made twice leaves the table as it was, as data (rules R56, R122). -/
theorem State.xupd_xupd_table {s : State} (h : Memory.wf s.table) (v : Word) : ((s.xupd v).xupd v).table = s.table := by
  have hwf := State.xupd_wf h v
  refine Memory.ext (State.xupd_wf hwf v) h fun a => ?_
  change ((s.xupd v).xupd v).readTable a = s.readTable a
  rw [State.readTable_xupd_share hwf, State.readTable_xupd_share h, State.share_congr (s.xupd_k v), BitVec.xor_assoc,
    BitVec.xor_self, BitVec.xor_zero]

/-- Settles O44: both commands complete, and each is one update. -/
theorem txorTwiceRestoresTheTable : Obligations.TxorTwiceRestoresTheTable := by
  intro s v hf ht hwf
  exact ⟨_, _, exec_txor hf ht v, exec_txor (s := (s.xupd v).clearResults.respond 0#64) hf ht v,
    State.xupd_xupd_table hwf v⟩

/-- Settles O39: the index is in range and the response is the whole effect. -/
theorem trdReadsOneWord : Obligations.TrdReadsOneWord := by
  intro s i hf ht hi
  exact exec_trd hf ht hi

/-- Settles O42: the stream is written first, and the update takes its new value. -/
theorem updAdvancesThenUpdates : Obligations.UpdAdvancesThenUpdates := by
  intro s j hf ht hs hwf
  refine ⟨_, _, exec_upd hf ht hs j, rfl, ?_, fun l hl => ?_, fun a => State.readTable_updStream hwf j a, rfl⟩
  · exact (State.readRan_updStream j j s).trans (if_pos rfl)
  · exact (State.readRan_updStream j l s).trans (if_neg hl)

end Sys2Proof.Machine
end

section
/-! SUPPORT. `RUN`: what it computes, what it is made of, and a second one (rules R128, R130). -/

namespace Sys2Proof.Machine

/-! ### What `RUN` computes -/

/-- The update phase writes the stream registers, the table and the working set (rule R128). -/
theorem State.exists_updateRounds (s : State) :
    ∃ r m w, s.updateRounds = { s with ran := r, table := m, work := w } := ⟨_, _, _, s.updateRounds_frame⟩

@[simp] theorem State.seedAll_readTable (s : State) (a : Nat) : s.seedAll.readTable a = s.readTable a := by
  rw [State.readTable, State.seedAll_table, State.readTable]

@[simp] theorem State.seedAll_rounds (s : State) : s.seedAll.rounds = s.rounds := by
  simp only [State.rounds, State.nupdate, State.tableSize, State.seedAll_k]

/-- Each stream has run its block: it stands where the next one started (rules R128, R130). -/
theorem State.readRan_run {s : State} (h : Memory.wf s.table) (h7 : 7 ≤ s.k.toNat) (h60 : s.k.toNat ≤ 60)
    (j : BitVec 7) : s.seedAll.updateRounds.readRan j = term (s.rounds * (j.toNat + 1)) := by
  obtain ⟨hran, -⟩ := State.updateRounds_spec (s := s.seedAll) (by rwa [s.seedAll_table])
  rw [hran, State.seedAll_rounds, State.readRan_seedAll_eq h7 h60, ← term_add, Nat.mul_succ, Nat.add_comm]

/-- The streams' blocks together are the whole sequence from a single stream (rule R130). -/
theorem State.readTable_run {s : State} (h : Memory.wf s.table) (h7 : 7 ≤ s.k.toNat) (h60 : s.k.toNat ≤ 60)
    (a : Nat) : s.seedAll.updateRounds.readTable a = s.readTable a ^^^ s.streamXor a s.nupdate := by
  obtain ⟨-, htable⟩ := State.updateRounds_spec (s := s.seedAll) (by rwa [s.seedAll_table])
  have hblock (j : Nat) (hj : j < 128) (i : Nat) :
      T^[i + 1] (s.seedAll.readRan (BitVec.ofNat 7 j)) = term (s.rounds * j + i + 1) := by
    rw [State.readRan_seedAll_eq h7 h60, BitVec.toNat_ofNat, Nat.mod_eq_of_lt hj, ← term_add, Nat.add_comm,
      ← Nat.add_assoc]
  rw [htable, State.seedAll_readTable, State.seedAll_rounds, State.share_congr s.seedAll_k, State.streamXor_eq,
    ← State.rounds_mul h7, ← xorUpTo_blocks]
  refine congrArg _ (xorUpTo_congr fun j hj => xorUpTo_congr fun i _ => ?_)
  rw [hblock j hj]

/-- Settles O45: the streams own consecutive blocks of the sequence, and nothing but the storage is written. -/
theorem runAppliesTheWholeSequence : Obligations.RunAppliesTheWholeSequence := by
  intro s hf ht h7 h60 hwf
  refine ⟨_, exec_run hf ht, fun j => ?_, fun a => ?_, ?_⟩
  · rw [← State.rounds_eq h7]
    exact State.readRan_run hwf h7 h60 j
  · rw [← s.nupdate_eq]
    exact State.readTable_run hwf h7 h60 a
  · obtain ⟨r, w, hseed⟩ := s.exists_seedAll
    obtain ⟨r', m, w', hrun⟩ := s.seedAll.exists_updateRounds
    rw [hrun, hseed]
    rfl

/-! ### Two `RUN`s in a row -/

/-- The values added depend on the table's size alone (rule R130). -/
theorem State.streamXor_congr {s t : State} (h : t.k = s.k) : t.streamXor = s.streamXor := by
  funext a n
  rw [State.streamXor_eq, State.streamXor_eq, State.share_congr h]

theorem State.nupdate_congr {s t : State} (h : t.k = s.k) : t.nupdate = s.nupdate := by
  rw [State.nupdate_eq, State.nupdate_eq, h]

/-- `RUN` leaves the canonical form. -/
theorem State.run_wf {s : State} (h : Memory.wf s.table) : Memory.wf s.seedAll.updateRounds.table :=
  State.updateRounds_wf (by rwa [s.seedAll_table])

/-- Settles O47: both add the same values, which cancel, and tables in canonical form that read the same are the same. -/
theorem secondRunRestoresTheTable : Obligations.SecondRunRestoresTheTable := by
  intro s hf ht h7 h60 hwf
  have hrun := State.readTable_run hwf h7 h60
  have hk : s.seedAll.updateRounds.k = s.k := by simp
  have hf' : s.seedAll.updateRounds.fault = false := by simpa using hf
  have ht' : s.seedAll.updateRounds.tvalid = true := by simpa using ht
  have hwf' := State.run_wf hwf
  refine ⟨_, _, exec_run hf ht,
    exec_run (s := s.seedAll.updateRounds.clearResults.respond 0#64) hf' ht', ?_⟩
  generalize s.seedAll.updateRounds = t at hrun hk hf' ht' hwf'
  have hwft : Memory.wf (t.clearResults.respond 0#64).table := hwf'
  refine Memory.ext (State.run_wf hwft) hwf fun a => ?_
  refine (State.readTable_run hwft (hk ▸ h7) (hk ▸ h60) a).trans ?_
  rw [State.streamXor_congr (s := s) (t := t.clearResults.respond 0#64) hk,
    State.nupdate_congr (s := s) (t := t.clearResults.respond 0#64) hk]
  change t.readTable a ^^^ _ = s.readTable a
  rw [hrun, BitVec.xor_assoc, BitVec.xor_self, BitVec.xor_zero]

/-! ### `RUN` as single commands -/

/-- `u` is what single commands leave where `RUN` stands at `t`: the same but for the working set, the responses and
the results, which `RUN` clears at its end only; and it is ready for more updates. -/
structure State.Tracks (t u : State) : Prop where
  same : u = { t with work := u.work, vdone := u.vdone, pass := u.pass, errcnt := u.errcnt, responses := u.responses }
  fault : u.fault = false
  tvalid : u.tvalid = true
  svalid : u.svalid = true

namespace State.Tracks

variable {t u : State}

/-- The two start together, the single commands with the response to `SEED` delivered. -/
theorem respond (hf : t.fault = false) (ht : t.tvalid = true) (hs : t.svalid = true) (d : Word) :
    t.Tracks (t.respond d) := ⟨rfl, hf, ht, hs⟩

theorem setWork (h : t.Tracks u) (w : Work) : State.Tracks { t with work := w } u := { h with }

/-- One update of the phase against one `UPD` (rules R127, R128). -/
theorem upd (h : t.Tracks u) (j : BitVec 7) (d : Word) :
    (State.updStream j t).Tracks ((State.updStream j u).clearResults.respond d) :=
  { h with same := by rw [h.same]; rfl }

/-- A round of the phase up to stream `n` against the first `n` of `UPD 0`, `UPD 1`, …. -/
theorem round (h : t.Tracks u) (n : Nat) :
    ∃ u', execAll ((List.range n).map fun j => .upd (BitVec.ofNat 7 j)) u = .next u' ∧
      (iter n (fun j t => (State.updStream (BitVec.ofNat 7 j) t).setJ (j + 1)) t).Tracks u' ∧
      (0 < n → u'.clearResults = u') := by
  induction n with
  | zero => exact ⟨u, rfl, h, nofun⟩
  | succ n ih =>
    obtain ⟨v, hv, htracks, -⟩ := ih
    refine ⟨_, ?_, (htracks.upd (BitVec.ofNat 7 n) (T (v.readRan (BitVec.ofNat 7 n)))).setWork _, fun _ => rfl⟩
    rw [List.range_succ, List.map_append, execAll_append hv]
    exact execAll_cons (exec_upd htracks.fault htracks.tvalid htracks.svalid _) []

/-- The rounds of the phase against as many runs of `UPD 0` to `UPD 127`. -/
theorem rounds (h : t.Tracks u) (n : Nat) :
    ∃ u', execAll (List.replicate n ((List.range 128).map fun j => Instr.upd (BitVec.ofNat 7 j))).flatten u = .next u' ∧
      (iter n (fun i t => (t.forJ State.updStream).setI (i + 1)) t).Tracks u' ∧ (0 < n → u'.clearResults = u') := by
  induction n with
  | zero => exact ⟨u, rfl, h, nofun⟩
  | succ n ih =>
    obtain ⟨v, hv, htracks, -⟩ := ih
    obtain ⟨v', hv', htracks', hclear⟩ := (htracks.setWork _).round 128
    refine ⟨v', ?_, htracks'.setWork _, fun _ => hclear (by decide)⟩
    rw [List.replicate_succ', List.flatten_append, execAll_append hv, List.flatten_singleton, hv']

end State.Tracks

/-- Settles O46: the rounds keep the two states in step, and the last `UPD` leaves the results as `RUN` does. -/
theorem runIsSeedThenRoundsOfUpdates : Obligations.RunIsSeedThenRoundsOfUpdates := by
  intro s hf ht h7
  have hseed : s.seedAll.Tracks (s.seedAll.respond 0#64) :=
    State.Tracks.respond (by simpa using hf) (by simpa using ht) s.seedAll_svalid _
  obtain ⟨u, hu, htracks, hclear⟩ := (hseed.setWork _).rounds s.rounds
  have hrun : s.seedAll.updateRounds.Tracks u := by
    rw [State.updateRounds, State.seedAll_rounds]
    exact htracks
  refine ⟨_, u, exec_run hf ht, ?_, ?_⟩
  · rw [execAll_cons (exec_seed hf), ← State.rounds_eq h7, hu]
  · have hpos : 0 < s.rounds := by rw [State.rounds_eq h7]; positivity
    generalize s.seedAll.updateRounds = t at hrun
    rw [← hclear hpos, hrun.same]
    rfl

end Sys2Proof.Machine
end

section
/-! SUPPORT. `VERIFY`, and the pipeline of `TINIT`, `RUN` and `VERIFY` (rules R151 to R156). -/

namespace Sys2Proof.Machine

/-! ### What `VERIFY` reports -/

/-- Counting and judging write the results and the working set (rules R152 to R154). -/
theorem State.exists_judge (s : State) :
    ∃ e p w, s.countErrors.judge = { s with errcnt := e, pass := p, vdone := true, work := w } := by
  rw [State.judge, s.countErrors_frame]
  exact ⟨_, _, _, rfl⟩

/-- The count is of the words as they stand after the replay, and `PASS` judges it on integers (rules R152, R153). -/
theorem State.judge_results (s : State) :
    s.countErrors.judge.errcnt.toNat = Nat.count (fun a => s.readTable a ≠ BitVec.ofNat 64 a) (2 ^ s.k.toNat) ∧
      s.countErrors.judge.pass =
        decide (s.countErrors.judge.errcnt.toNat * s.params.tolDen ≤ 2 ^ s.k.toNat * s.params.tolNum) := by
  refine ⟨s.countErrors_toNat, ?_⟩
  rw [State.judge_pass, State.withinTolerance, State.tableSize, State.countErrors_k, State.countErrors_params,
    State.judge_errcnt]

/-- Settles O48: the replay writes the table, counting and judging the results. -/
theorem verifyReplaysCountsAndJudges : Obligations.VerifyReplaysCountsAndJudges := by
  intro s hf ht hwf
  obtain ⟨hcount, hpass⟩ := s.replay.judge_results
  have hread := State.readTable_replay hwf
  rw [s.replay_k] at hcount hpass
  rw [s.replay_params] at hpass
  refine ⟨_, exec_verify hf ht, ?_⟩
  rw [← State.judge_errcnt s.replay.countErrors]
  obtain ⟨e, p, w, hjudge⟩ := s.replay.exists_judge
  rw [hjudge] at hcount hpass ⊢
  refine ⟨hread, hcount, ?_, ?_⟩
  · exact Bool.eq_iff_iff.1 hpass |>.trans (decide_eq_true_iff)
  · rw [s.replay_frame]
    rfl

/-! ### Commands that do not change the table -/

/-- What commands that do not change the table keep: the table; and a block that is not faulted, or whose table is
valid, after them was so before, at the same size. -/
structure State.Quiet (s t : State) : Prop where
  table : t.table = s.table
  fault : t.fault = false → s.fault = false
  valid : t.tvalid = true → s.tvalid = true ∧ t.k = s.k

theorem State.Quiet.refl (s : State) : s.Quiet s := ⟨rfl, id, fun h => ⟨h, rfl⟩⟩

theorem State.Quiet.trans {s t u : State} (h : s.Quiet t) (h' : t.Quiet u) : s.Quiet u where
  table := h'.table.trans h.table
  fault := h.fault ∘ h'.fault
  valid hu := by
    obtain ⟨ht, hk⟩ := h'.valid hu
    obtain ⟨hs, hk'⟩ := h.valid ht
    exact ⟨hs, hk.trans hk'⟩

/-- A faulted block stays faulted (rule R201). -/
theorem fault_of_exec {i : Instr} {s t : State} (h : exec i s = .next t) (ht : t.fault = false) : s.fault = false := by
  by_contra hf
  have hf : s.fault = true := by simpa using hf
  obtain rfl := Host.Outcome.next.inj ((exec_faulted hf i).symm.trans h)
  rw [State.refuseFaulted_fault, hf] at ht
  contradiction

theorem exec_quiet {i : Instr} {s t : State} (hi : changesTable i = false) (h : exec i s = .next t) : s.Quiet t := by
  have quiet (hm : t.table = s.table) (hv : t.tvalid = s.tvalid) (hk : t.k = s.k) : s.Quiet t :=
    ⟨hm, fault_of_exec h, fun ht => ⟨hv ▸ ht, hk⟩⟩
  cases exec_ends h with
  | cfg k => exact ⟨rfl, fault_of_exec h, nofun⟩
  | starts | seed => exact quiet (by simp) (by simp) (by simp)
  | tinit | txor | upd | run | verify => contradiction
  | _ => exact quiet rfl rfl rfl

theorem execAll_quiet {is : List Instr} {s t : State} (hi : ∀ i ∈ is, changesTable i = false)
    (h : execAll is s = .next t) : s.Quiet t := by
  induction is generalizing s with
  | nil =>
    obtain rfl : s = t := Host.Outcome.next.inj h
    exact .refl s
  | cons i is ih =>
    obtain ⟨u, hu⟩ := exec_next i s
    rw [execAll_cons hu] at h
    obtain ⟨hfirst, hrest⟩ := List.forall_mem_cons.1 hi
    exact (exec_quiet hfirst hu).trans (ih hrest h)

/-! ### The pipeline -/

/-- `RUN` and `VERIFY` take a fault unless the block is not faulted and its table is valid (rules R198, R201). -/
theorem ready_of_exec {i : Instr} {s t : State} (hi : i = .run ∨ i = .verify) (h : exec i s = .next t)
    (ht : t.fault = false) : s.fault = false ∧ s.tvalid = true := by
  have hf := fault_of_exec h ht
  refine ⟨hf, ?_⟩
  by_contra hv
  have hraise := exec_tableNotInit hf (by simpa using hv) (.inr (.inr (.inr hi)))
  obtain rfl := Host.Outcome.next.inj (hraise.symm.trans h)
  contradiction

/-- What `TINIT` leaves for `RUN` (rule R121). -/
theorem exists_exec_tinit {s : State} (hf : s.fault = false) (hwf : Memory.wf s.table) :
    ∃ t, exec .tinit s = .next t ∧ t.fault = false ∧ t.tvalid = true ∧ t.k = s.k ∧ Memory.wf t.table ∧
      ∀ i, i < 2 ^ s.k.toNat → t.readTable i = BitVec.ofNat 64 i :=
  ⟨_, exec_tinit hf, hf, rfl, rfl, Memory.wf_init hwf _, fun i hi => (Memory.read_init _ _ i).trans (if_pos hi)⟩

/-- `VERIFY` undoes `RUN` on a table nothing else changes (rules R59, R130, R151): from the identity at `s₀` the two end
with the identity, no error and `PASS` set. -/
theorem run_verify_from_identity {s₀ s t u v : State} (hwf : Memory.wf s₀.table) (h7 : 7 ≤ s₀.k.toNat)
    (h60 : s₀.k.toNat ≤ 60) (hid : ∀ i, i < 2 ^ s₀.k.toNat → s₀.readTable i = BitVec.ofNat 64 i)
    (hbefore : s₀.Quiet s) (hrun : exec .run s = .next t) (hbetween : t.Quiet u) (hverify : exec .verify u = .next v)
    (hv : v.fault = false) :
    v.errcnt = 0#64 ∧ v.pass = true ∧ ∀ i, i < 2 ^ s₀.k.toNat → v.readTable i = BitVec.ofNat 64 i := by
  obtain ⟨huf, hut⟩ := ready_of_exec (.inr rfl) hverify hv
  obtain ⟨hsf, hst⟩ := ready_of_exec (.inl rfl) hrun (hbetween.fault huf)
  obtain ⟨-, hsk⟩ := hbefore.valid hst
  obtain ⟨-, huk⟩ := hbetween.valid hut
  obtain rfl := Host.Outcome.next.inj (hrun.symm.trans (exec_run hsf hst))
  have hk : u.k = s.k := huk.trans (by simp)
  have hswf : Memory.wf s.table := hbefore.table ▸ hwf
  have huwf : Memory.wf u.table := hbetween.table ▸ State.run_wf hswf
  rw [← hsk] at h7 h60
  have hread (a : Nat) : u.readTable a = s.readTable a ^^^ s.streamXor a s.nupdate := by
    rw [State.readTable, hbetween.table]
    exact State.readTable_run hswf h7 h60 a
  obtain ⟨v', hv', hreplay, hcount, hpass, -⟩ := verifyReplaysCountsAndJudges u huf hut huwf
  obtain rfl := Host.Outcome.next.inj (hverify.symm.trans hv')
  have hidentity (i : Nat) (hi : i < 2 ^ s₀.k.toNat) : v.readTable i = BitVec.ofNat 64 i := by
    rw [hreplay, hread, State.streamXor_congr hk, hk]
    change s.readTable i ^^^ s.streamXor i s.nupdate ^^^ s.streamXor i s.nupdate = _
    rw [BitVec.xor_assoc, BitVec.xor_self, BitVec.xor_zero, State.readTable, hbefore.table]
    exact hid i hi
  have hzero : v.errcnt.toNat = 0 := by
    rw [hcount, hk, hsk, Nat.count_iff_forall_not]
    exact fun i hi => not_not.2 (hidentity i hi)
  exact ⟨BitVec.eq_of_toNat_eq hzero, hpass.2 (by rw [hzero, Nat.zero_mul]; exact Nat.zero_le _), hidentity⟩

/-- With nothing between them no command of the pipeline takes a fault. -/
theorem pipeline_completes {s₀ t : State} (hf : s₀.fault = false) (ht : s₀.tvalid = true)
    (h : execAll [.run, .verify] s₀ = .next t) : t.fault = false := by
  rw [execAll_cons (exec_run hf ht), execAll_cons (exec_verify (by simpa using hf) (by simpa using ht))] at h
  obtain rfl := Host.Outcome.next.inj h
  simpa using hf

/-- Settles O49: a pipeline that ends without a fault took none on the way, so `RUN` and `VERIFY` both find the size
that `TINIT` found. -/
theorem pipelineEndsWithNoErrors : Obligations.PipelineEndsWithNoErrors := by
  intro s as bs hf h7 h60 hwf hquiet
  obtain ⟨has, hbs⟩ := List.forall_mem_append.1 hquiet
  obtain ⟨s₀, htinit, hf₀, ht₀, hk₀, hwf₀, hid₀⟩ := exists_exec_tinit hf hwf
  obtain ⟨s₁, hs₁⟩ := execAll_next as s₀
  obtain ⟨s₂, hrun⟩ := exec_next .run s₁
  obtain ⟨s₃, hs₃⟩ := execAll_next bs s₂
  obtain ⟨t, hverify⟩ := exec_next .verify s₃
  have hall : execAll (as ++ .run :: bs ++ [.verify]) s₀ = .next t := by
    rw [List.append_assoc, execAll_append hs₁, List.cons_append, execAll_cons hrun, execAll_append hs₃,
      execAll_cons hverify, execAll]
  refine ⟨t, (execAll_cons htinit _).trans hall, fun htf => ?_, ?_⟩
  · rw [← hk₀] at h7 h60 hid₀ ⊢
    exact run_verify_from_identity hwf₀ h7 h60 hid₀ (execAll_quiet has hs₁) hrun (execAll_quiet hbs hs₃) hverify htf
  · rintro rfl rfl
    exact pipeline_completes hf₀ ht₀ hall

end Sys2Proof.Machine
end

section
/-! SUPPORT. Which commands write the flags, the streams and the table (rules R22, R28, R29, R52, R228). -/

namespace Sys2Proof.Machine

/-- Settles O54: the flags each outcome without a fault leaves; `VERIFY` reports what it counts and judges. -/
theorem flagsChangeAsTheirTableSays : Obligations.FlagsChangeAsTheirTableSays := by
  intro i s t hf h ht
  cases exec_ends h with
  | refused hft => rw [hf] at hft; contradiction
  | raised x => contradiction
  | verify =>
    obtain ⟨hcount, hpass⟩ := s.replay.judge_results
    rw [s.replay_k] at hcount hpass
    rw [s.replay_params] at hpass
    exact ⟨by simp, by simp, rfl, hpass, by simpa using hcount⟩
  | starts | seed | run => simp
  | _ => exact ⟨rfl, rfl, rfl, rfl, rfl⟩

/-- Settles O55: of the commands that are not `SEED` or `RUN` only `STEP` and `UPD` write a stream, the one they name. -/
theorem onlyStreamCommandsWriteStreams : Obligations.OnlyStreamCommandsWriteStreams := by
  intro i s t h
  cases exec_ends h with
  | seed => exact .inl (.inl rfl)
  | run => exact .inl (.inr rfl)
  | step j =>
    refine .inr fun l => ?_
    by_cases hl : l = j
    · exact .inr (.inl (by rw [hl]))
    · exact .inl ((State.readRan_writeRan s j l _).trans (if_neg hl))
  | upd j =>
    refine .inr fun l => ?_
    by_cases hl : l = j
    · exact .inr (.inr (by rw [hl]))
    · exact .inl ((State.readRan_updStream j l s).trans (if_neg hl))
  | starts | verify => exact .inr fun l => .inl (by simp [State.readRan])
  | _ => exact .inr fun l => .inl rfl

/-- Settles O56: the commands that write the table past a check found it valid, and the others leave it alone. -/
theorem onlyTableCommandsWriteTheTable : Obligations.OnlyTableCommandsWriteTheTable := by
  intro i s t h
  cases exec_ends h with
  | tinit => exact .inr (.inl rfl)
  | txor v ht => exact .inr (.inr ⟨ht, .inl ⟨v, rfl⟩⟩)
  | upd j ht => exact .inr (.inr ⟨ht, .inr (.inl ⟨j, rfl⟩)⟩)
  | run ht => exact .inr (.inr ⟨ht, .inr (.inr (.inl rfl))⟩)
  | verify ht => exact .inr (.inr ⟨ht, .inr (.inr (.inr rfl))⟩)
  | starts | seed => exact .inl (by simp)
  | _ => exact .inl rfl

end Sys2Proof.Machine
end
